-- ==== Sys2Proof/Word.lean ====
section
/-! DEFINITION. The value types of 00_scope.md R8 and R11: bytes and times. -/

namespace Sys2Proof

/-- R8, R11: a byte is an 8-bit unsigned value, bit 0 the least significant. -/
abbrev Byte := BitVec 8

/-! R11, R164: a `Time` is a natural number of milliseconds, with no width and no wrap (decision D4); the model writes
`Nat`. -/

end Sys2Proof
end

