-- ==== Sys2Proof/Config.lean ====
section
/-! DEFINITION. What an implementation fixes at construction and no operation changes (10_state.md R28). -/

namespace Sys2Proof

/-- The static configuration record (R28, 00_scope.md R6). The wire constants are hardwired and stand in Machine/Wire.lean;
the timestamp width `W_T` of R6 is used by no rule and has no field. -/
structure Config where
  /-- `C`, the capacity of the frame buffer in bytes: OPEN, any natural number (decision D5, U9). -/
  capacity : Nat
  /-- `TIMEOUT_MS`, the stall timeout in milliseconds (decision D6). -/
  timeoutMs : Nat
deriving DecidableEq, Repr

/-- The configuration that `Machine.State.reset` is constructed with. `TIMEOUT_MS = 100` is the spec's default (R6, R32).
DESIGN CHOICE (unsafe, log 4): the spec gives `C` no value; 16 is the capacity its test vectors use (95_test_vectors.md).
Only statements about `State.reset` itself see it: every other statement quantifies over the configuration. -/
def Config.default : Config := { capacity := 16, timeoutMs := 100 }

end Sys2Proof
end

