-- ==== Sys2Proof/Machine/Wire.lean ====
section
/-! DEFINITION. The hardwired wire constants of 00_scope.md R6 and the parser's two modes with their one-bit code. -/

namespace Sys2Proof.Machine

/-- `START`, R81. -/
def startByte : Byte := 0x3A

/-- `END`, R81. -/
def endByte : Byte := 0x7E

/-- `MIN_BODY`, R6, R127: the least body length that is validated further. -/
def minBody : Nat := 5

/-- `LEN_HI_OFF`, R6, R82: offset in `data` of the declared length's high byte. -/
def lenHiOff : Nat := 2

/-- `LEN_LO_OFF`, R6, R82: offset in `data` of the declared length's low byte. -/
def lenLoOff : Nat := 3

/-- `start_index` of R131. -/
def startIndex : Nat := 4

/-- The constant added to `byte_count` in R131. -/
def byteCountBias : Nat := 8

/-- `LEN_BIAS`, R6: what R131 reduces to, `Length_validation = L + LEN_BIAS` (`lengthValidation_eq`). -/
def lenBias : Nat := 2

/-- `CMD_OFF`, R6: offset in `data` of the command byte, 1 by 90_conflicts.md C1 (log 13). -/
def cmdOff : Nat := 1

/-- `SUB_OFF`, R6: offset in `data` of the sub-command byte, 5 by 90_conflicts.md C1 (log 13). -/
def subOff : Nat := 5

/-- R21: the parser mode. -/
inductive Mode where
  /-- Waiting for `START`. -/
  | idle
  /-- Accumulating payload bytes until `END`. -/
  | collecting
deriving DecidableEq, Repr

/-- R91: `Idle = 0`, `Collecting = 1`. -/
def Mode.code : Mode → Bool
  | .idle => false
  | .collecting => true

/-- R91, the other direction. -/
def Mode.ofCode : Bool → Mode
  | false => .idle
  | true => .collecting

end Sys2Proof.Machine
end

