-- ==== Sys2Proof/Syntax.lean ====
section
/-! DEFINITION. The operations of the block: one constructor per row of spec/opcode_table.json. -/

namespace Sys2Proof

/-- 30_encoding.md R88 (the five requests) and R92 (the five rows FEED selects between). The operands are those of R89.
A row of the FEED decode fixes its byte where the table does (`FEED.START`, `FEED.END`) and carries it elsewhere. -/
inductive Instr where
  /-- CSUM, R110: `span` is any finite byte sequence. -/
  | csum (span : List Byte)
  /-- FEED, R120: one received byte and the clock reading when it is fed. -/
  | feed (byte : Byte) (now : Nat)
  /-- ENCODE, R150: `payload` is any finite byte sequence. -/
  | encode (payload : List Byte)
  /-- TICK, R160: the current clock reading. -/
  | tick (now : Nat)
  /-- RESET, R170: no operand. -/
  | reset
  /-- FEED.START, R122: `0x3A` in `Idle`. -/
  | feedStart (now : Nat)
  /-- FEED.NOISE, R123: any other byte in `Idle`. -/
  | feedNoise (byte : Byte) (now : Nat)
  /-- FEED.END, R124: `0x7E` in `Collecting`. -/
  | feedEnd (now : Nat)
  /-- FEED.APPEND, R125: any other byte in `Collecting` while the buffer has room. -/
  | feedAppend (byte : Byte) (now : Nat)
  /-- FEED.OVERFLOW, R126: any other byte in `Collecting` when the buffer is full. -/
  | feedOverflow (byte : Byte) (now : Nat)
deriving DecidableEq, Repr

end Sys2Proof
end

