-- ==== Sys2Proof/WellFormed.lean ====
section
/-! DEFINITION. Which terms of `Instr` are operations: the `cond` column of the FEED rows (30_encoding.md R92). -/

namespace Sys2Proof

/-- R92, opcode_table.json `cond`: the first matching row wins, so the row NOISE never has `0x3A`, and the rows APPEND and
OVERFLOW never have `0x7E`. Every other operand is admitted at every value (R89). -/
def Instr.wellFormed : Instr → Bool
  | .csum _ => true
  | .feed _ _ => true
  | .encode _ => true
  | .tick _ => true
  | .reset => true
  | .feedStart _ => true
  | .feedNoise byte _ => byte != Machine.startByte
  | .feedEnd _ => true
  | .feedAppend byte _ => byte != Machine.endByte
  | .feedOverflow byte _ => byte != Machine.endByte

end Sys2Proof
end

