-- ==== Sys2Proof/Decode.lean ====
section
/-! DEFINITION. The two encodings of 30_encoding.md, requests (R88, R89) and the key FEED decodes (R92), their decoder,
and the encoder written from the same tables. -/

namespace Sys2Proof

open Machine (Mode startByte endByte)

/-! ## Requests: `op[2:0]` and the operands beside it -/

/-- R88, R89: a request as the host presents it. Each operand travels beside `op`; an operation ignores the operands that
are not listed for it. An operand the host does not drive is empty or 0 here. -/
structure Request where
  /-- `op[2:0]`. -/
  op : BitVec 3
  /-- The operand of CSUM. -/
  span : List Byte := []
  /-- The byte operand of FEED. -/
  byte : Byte := 0
  /-- The time operand of FEED and TICK. -/
  now : Nat := 0
  /-- The operand of ENCODE. -/
  payload : List Byte := []
deriving DecidableEq, Repr

/-- R88, decision D2: the operation codes. -/
def opCsum : BitVec 3 := 0b000
def opFeed : BitVec 3 := 0b001
def opEncode : BitVec 3 := 0b010
def opTick : BitVec 3 := 0b011
def opReset : BitVec 3 := 0b100

/-- Why a decode names no operation. -/
inductive Reject where
  /-- R93, U5: `op` is one of the reserved codes 5, 6, 7. -/
  | reservedOp (op : BitVec 3)
deriving DecidableEq, Repr

/-- What a decode answers. -/
inductive Decoded where
  | instr (i : Instr)
  | rejected (why : Reject)
deriving DecidableEq, Repr

/-- R88, R89, R93: the operation a request names. -/
def decodeRequest (r : Request) : Decoded :=
  if r.op = opCsum then .instr (.csum r.span)
  else if r.op = opFeed then .instr (.feed r.byte r.now)
  else if r.op = opEncode then .instr (.encode r.payload)
  else if r.op = opTick then .instr (.tick r.now)
  else if r.op = opReset then .instr .reset
  else .rejected (.reservedOp r.op)

/-! ## The FEED decode: `mode || byte` and the `len` test -/

/-- R92: the class a FEED belongs to. -/
inductive FeedClass where
  | start | noise | frameEnd | append | overflow
deriving DecidableEq, Repr

/-- R92: the class of a byte fed in a mode; `full` is the outcome of the table's `len` test (`len == C`). -/
def feedClass (mode : Mode) (byte : Byte) (full : Bool) : FeedClass :=
  match mode with
  | .idle => if byte = startByte then .start else .noise
  | .collecting => if byte = endByte then .frameEnd else if full then .overflow else .append

/-- The 9-bit key of R92, mode in bit 8. -/
abbrev FeedKey := BitVec 9

/-- R92: bit 8 of the key, by the code of R91. -/
def keyMode (key : FeedKey) : Mode := Mode.ofCode (key.getLsbD 8)

/-- R92: bits 7 to 0 of the key. -/
def keyByte (key : FeedKey) : Byte := key.extractLsb' 0 8

/-- R92: the key of a mode and a byte. -/
def feedKey (mode : Mode) (byte : Byte) : FeedKey := (BitVec.ofBool mode.code ++ byte).cast rfl

/-- One row of the table of R92, as opcode_table.json writes it. -/
structure FeedRow where
  /-- The key bits the row tests. -/
  mask : FeedKey
  /-- Their values. -/
  pattern : FeedKey
  /-- The `len` test: none, `len < C` (`some false`) or `len == C` (`some true`). -/
  full : Option Bool
  /-- The class the row selects. -/
  cls : FeedClass
deriving DecidableEq, Repr

/-- The table of R92 in its first-match order; `match` and `mask` are those of opcode_table.json. -/
def feedRows : List FeedRow :=
  [ { mask := 0x1FF, pattern := 0x03A, full := none, cls := .start },
    { mask := 0x100, pattern := 0x000, full := none, cls := .noise },
    { mask := 0x1FF, pattern := 0x17E, full := none, cls := .frameEnd },
    { mask := 0x100, pattern := 0x100, full := some false, cls := .append },
    { mask := 0x100, pattern := 0x100, full := some true, cls := .overflow } ]

/-- R97: a row matches when its key bits and its `len` test do. -/
def FeedRow.matchesKey (row : FeedRow) (key : FeedKey) (full : Bool) : Bool :=
  key &&& row.mask == row.pattern && (row.full == none || row.full == some full)

/-- The operation of a class, with the byte and time of the FEED. -/
def rowInstr (cls : FeedClass) (byte : Byte) (now : Nat) : Instr :=
  match cls with
  | .start => .feedStart now
  | .noise => .feedNoise byte now
  | .frameEnd => .feedEnd now
  | .append => .feedAppend byte now
  | .overflow => .feedOverflow byte now

/-! ## Both formats -/

/-- An encoded operation: the format `REQ` or the format `FEEDKEY` of opcode_table.json (R97). A FEED key is not a request
of the host: it is what FEED looks up, so beside the nine bits stand the outcome of the `len` test and the FEED's time. -/
inductive Encoded where
  | request (r : Request)
  | key (key : FeedKey) (full : Bool) (now : Nat)
deriving DecidableEq, Repr

/-- The decoder: total, and it rejects by name. -/
def decode : Encoded → Decoded
  | .request r => decodeRequest r
  | .key k full now => .instr (rowInstr (feedClass (keyMode k) (keyByte k) full) (keyByte k) now)

/-- The encoder, from the tables of R88, R89 and R92. Operands an operation does not have stay empty or 0, and so does the
`len` test of a row that has none. -/
def encode : Instr → Encoded
  | .csum span => .request { op := opCsum, span := span }
  | .feed byte now => .request { op := opFeed, byte := byte, now := now }
  | .encode payload => .request { op := opEncode, payload := payload }
  | .tick now => .request { op := opTick, now := now }
  | .reset => .request { op := opReset }
  | .feedStart now => .key (feedKey .idle startByte) false now
  | .feedNoise byte now => .key (feedKey .idle byte) false now
  | .feedEnd now => .key (feedKey .collecting endByte) false now
  | .feedAppend byte now => .key (feedKey .collecting byte) false now
  | .feedOverflow byte now => .key (feedKey .collecting byte) true now

/-! ## Table words -/

/-- The request of a table word of the format `REQ`: the table gives it `op[2:0]` alone (mask `0x7`), so its operands are
empty or 0 (log 17). -/
def tableRequest (w : Nat) : Request := { op := BitVec.ofNat 3 w }

/-- The key of a table word of the format `FEEDKEY` (mask within `0x1FF`). -/
def tableKey (w : Nat) : FeedKey := BitVec.ofNat 9 w

/-- The two formats differ in width: 3 bits in one byte, 9 bits in two. -/
def isRequestWidth (nbits : Nat) : Bool := nbits ≤ 8

/-- A table word in its format. The key alone does not say whether the buffer is full; of the two rows it then matches
the first in the table's order is taken (log 8). -/
def tableEncoded (nbits w : Nat) : Encoded :=
  if isRequestWidth nbits then .request (tableRequest w) else .key (tableKey w) false 0

/-- The instruction the decoder reads from a table word. -/
def decodeTableWord (nbits w : Nat) : Option Instr :=
  match decode (tableEncoded nbits w) with
  | .instr i => some i
  | .rejected _ => none

end Sys2Proof
end

