-- ==== Sys2Proof/Machine/Events.lean ====
section
/-! DEFINITION. What the block gives back: error kinds, events and responses (00_scope.md R11, 30_encoding.md R90), the
events' numeric form, and what each consumer reads of a response. -/

namespace Sys2Proof.Machine

/-- R180: the five error kinds. -/
inductive ErrorKind where
  | frameTooShort | checksumMismatch | lengthMismatch | bufferOverflow | timeout
deriving DecidableEq, Repr

/-- R133: what a valid frame delivers. -/
structure Received where
  command : Byte
  /-- Absent when `data` has no byte at `SUB_OFF`. -/
  subcommand : Option Byte
  /-- The payload without its checksum, a copy (10_state.md R35). -/
  data : List Byte
deriving DecidableEq, Repr

/-- R11, R90: an event. -/
inductive Event where
  | none
  | received (r : Received)
  | error (kind : ErrorKind)
deriving DecidableEq, Repr

/-- R11: the response of an operation: a byte for CSUM, an event for FEED and TICK, a byte sequence for ENCODE and
`nothing` for RESET. -/
inductive Response where
  | byte (b : Byte)
  | event (e : Event)
  | bytes (bs : List Byte)
  /-- RESET gives back nothing; the entry keeps one response per operation (R7; log 2). -/
  | nothing
deriving DecidableEq, Repr

/-! ## Numeric codes -/

/-- R90, decision D9: `kind[2:0]`. -/
def ErrorKind.code : ErrorKind → BitVec 3
  | .frameTooShort => 1
  | .checksumMismatch => 2
  | .lengthMismatch => 3
  | .bufferOverflow => 4
  | .timeout => 5

/-- R90: the kind of a code; 0, 6 and 7 are never produced. -/
def ErrorKind.ofCode (k : BitVec 3) : Option ErrorKind :=
  if k = 1 then some .frameTooShort
  else if k = 2 then some .checksumMismatch
  else if k = 3 then some .lengthMismatch
  else if k = 4 then some .bufferOverflow
  else if k = 5 then some .timeout
  else Option.none

/-- R90: an event as its fields. A field the table does not call meaningful for the event is absent (log 20). -/
structure EventWord where
  /-- `ev[1:0]`. -/
  ev : BitVec 2
  /-- `kind[2:0]`, when `ev == 2`. -/
  kind : Option (BitVec 3)
  /-- `command[7:0]`, when `ev == 1`. -/
  command : Option Byte
  /-- `sub_valid`, when `ev == 1`. -/
  subValid : Option (BitVec 1)
  /-- `subcommand[7:0]`, when `ev == 1` and `sub_valid == 1`. -/
  subcommand : Option Byte
  /-- `data`, when `ev == 1`. -/
  data : Option (List Byte)
deriving DecidableEq, Repr

/-- R90: the fields of an event. -/
def Event.word : Event → EventWord
  | .none =>
    { ev := 0, kind := Option.none, command := Option.none, subValid := Option.none, subcommand := Option.none,
      data := Option.none }
  | .received r =>
    { ev := 1, kind := Option.none, command := some r.command,
      subValid := some (BitVec.ofBool r.subcommand.isSome), subcommand := r.subcommand, data := some r.data }
  | .error k =>
    { ev := 2, kind := some k.code, command := Option.none, subValid := Option.none, subcommand := Option.none,
      data := Option.none }

/-- R90: the event of its fields; `ev == 3` and the unused kinds name none. -/
def EventWord.event (w : EventWord) : Option Event :=
  if w.ev = 0 then some .none
  else if w.ev = 1 then
    match w.command, w.subValid, w.data with
    | some c, some v, some d =>
      some (.received { command := c, subcommand := if v = 1 then w.subcommand else Option.none, data := d })
    | _, _, _ => Option.none
  else if w.ev = 2 then
    match w.kind with
    | some k => (ErrorKind.ofCode k).map .error
    | Option.none => Option.none
  else Option.none

/-! ## What each consumer reads of a response -/

/-- R133, R187: what goes to the command-dispatch layer. -/
def Response.dispatched : Response → Option Received
  | .event (.received r) => some r
  | _ => Option.none

/-- R134: the raw-bytes output is the `data` of the same event. -/
def Response.rawBytes : Response → Option (List Byte)
  | .event (.received r) => some r.data
  | _ => Option.none

/-- R182, R187: what goes to the logging collaborator, the kind and nothing else. -/
def Response.logged : Response → Option ErrorKind
  | .event (.error k) => some k
  | _ => Option.none

end Sys2Proof.Machine
end

