-- ==== Sys2Proof/Machine/State.lean ====
section
/-! DEFINITION. The state of the block (10_state.md R20), the two queues that stand for its host, the reasons a step stops,
and the state after construction. -/

namespace Sys2Proof.Machine

/-- How the host issues a request. R59, R196: serially, as its duties say; the other two break a duty (log 11). -/
inductive Issue where
  /-- After the operation before it, and the handling of its event, are over. -/
  | serial
  /-- From inside the consumer's handling of an event of this engine (R230, U4). -/
  | fromHandler
  /-- While another operation on this engine is in progress (R228, U3). -/
  | overlapping
deriving DecidableEq, Repr

/-- A request the host has issued and the engine has not taken yet. -/
structure Pending where
  issue : Issue := .serial
  request : Request
deriving DecidableEq, Repr

/-- R20: the whole architectural state is `mode`, `buffer` with its length, and `last_byte_time`; R28: the configuration is
fixed at construction. `pending` and `responses` are the model's own (logs 1 and 2): the spec's step takes a request and
gives a response, `step` takes a state alone. -/
structure State where
  /-- R28: the static configuration. -/
  cfg : Config
  /-- R21. -/
  mode : Mode
  /-- R22: the valid bytes, index 0 first; its length is the register `len`. Bytes at indices `>= len` are not represented
  (R31, D22; log 6). -/
  buffer : List Byte
  /-- R23: `last_byte_time`. -/
  lastByteTime : Nat
  /-- The requests not yet taken, oldest first. -/
  pending : List Pending
  /-- The responses given so far, oldest first (R59 (c)). -/
  responses : List Response
deriving DecidableEq, Repr

/-- R188: the block never traps, sticks or hangs, so there is no reason to fault (log 19). -/
inductive Fault where
deriving DecidableEq, Repr

/-- Why a request is given no meaning (93_implementation_defined.md). Every refusal is safe: the run stops. -/
inductive Refusal where
  /-- Raised by an arm of `exec` without a meaning; there is none. Safe. -/
  | notModelled (mnemonic : String)
  /-- Raised by `step` for `op` 5, 6 or 7 (R93, U5). Safe. -/
  | reservedOp (op : BitVec 3)
  /-- Raised by TICK when `now` is below `last_byte_time` while a frame with bytes is in flight (R164, U1, U2). Safe. -/
  | clockBackwards
  /-- Raised by `step` for FEED, TICK or RESET issued from inside the handling of an event (R230, U4). Safe. -/
  | reentrantOperation
  /-- Raised by `step` for FEED, TICK or RESET that overlaps another operation (R228, U3). Safe. -/
  | overlappingOperation
  /-- Raised by a row of the FEED decode executed where the decode selects another row (R92; log 7). Safe. -/
  | feedRowNotSelected
deriving DecidableEq, Repr

/-- R32, R221: the state engine construction leaves, for a configuration and any value of `last_byte_time`, which the spec
leaves unspecified (U8). -/
def State.construct (cfg : Config) (lastByteTime : Nat) : State :=
  { cfg := cfg, mode := .idle, buffer := [], lastByteTime := lastByteTime, pending := [], responses := [] }

/-- The machine right after construction. DESIGN CHOICE (unsafe, logs 4 and 5): `C = 16` and `last_byte_time = 0`, to which
the spec gives no value. -/
def State.reset : State := State.construct Config.default 0

end Sys2Proof.Machine
end

