-- ==== Sys2Proof/Machine/Ops.lean ====
section
/-! DEFINITION. The shared operations: the checksum, the frame buffer, the registers, the response, and raising an error. -/

namespace Sys2Proof.Machine

/-! ## The Checksum Unit -/

/-- R111: the fold over the 8-bit accumulator, which starts at 0 and drops the carry out of bit 7. -/
def checksum (s : List Byte) : Byte := s.foldl (fun acc b => acc + b) 0

/-- R80, R150: `START || p || checksum(p) || END`. -/
def encodeFrame (p : List Byte) : List Byte := [startByte] ++ p ++ [checksum p] ++ [endByte]

/-! ## The frame buffer -/

/-- R20: the register `len`. -/
def State.len (s : State) : Nat := s.buffer.length

/-- R9, R52 `MemRead(i, 1)`: the byte at index `i`, defined only below `len`. -/
def State.memRead (s : State) (i : Nat) : Option Byte := s.buffer[i]?

/-- R9, R51 `MemWrite(len, 1, v); len <- len + 1`: the append, the only write. -/
def State.append (v : Byte) (s : State) : State := { s with buffer := s.buffer ++ [v] }

/-- R9, R53 `clear()`: `len <- 0`. -/
def State.clear (s : State) : State := { s with buffer := [] }

/-- R50: the form of the buffer, no byte outside `0 .. C-1`. A byte sequence is canonical as it is (log 6). -/
def Memory.wf (cfg : Config) (buffer : List Byte) : Bool := buffer.length ≤ cfg.capacity

/-! ## The other registers and the response -/

/-- R21: `mode <- m`. -/
def State.setMode (m : Mode) (s : State) : State := { s with mode := m }

/-- R121: `last_byte_time <- now`. -/
def State.stamp (now : Nat) (s : State) : State := { s with lastByteTime := now }

/-- R7, R35: the response of the operation. -/
def State.respond (r : Response) (s : State) : State := { s with responses := s.responses ++ [r] }

/-- `mode <- Idle; clear()`: the end of every frame, error, timeout and RESET (R135, R162, R170, R185). -/
def State.toIdle (s : State) : State := (s.setMode .idle).clear

/-! ## Error events -/

/-- R185, R9 `raise <Kind>`: taking an exception. `mode <- Idle; clear()`, and the response is `Error{kind}`; nothing is
saved and control goes nowhere. R186: there is no return operation, the engine is ready for the next `START` at once. -/
def State.raise (k : ErrorKind) (s : State) : State := s.toIdle.respond (.event (.error k))

/-- R133, R195: delivery of a valid frame; it changes the state as an error does and is not reported as one. -/
def State.deliver (r : Received) (s : State) : State := s.toIdle.respond (.event (.received r))

end Sys2Proof.Machine
end

