-- ==== Sys2Proof/Machine/Checksum.lean ====
section
/-! DEFINITION. The Checksum Unit's operation (40_checksum.md). -/

namespace Sys2Proof.Machine

/-- CSUM, R110: the response is `checksum(span)`; no state is read or written (R114). -/
def execCsum (span : List Byte) (s : State) : Host.Outcome State Fault Refusal :=
  .next (s.respond (.byte (checksum span)))

end Sys2Proof.Machine
end

