-- ==== Sys2Proof/Machine/Encoder.lean ====
section
/-! DEFINITION. The outbound encoder (42_encode.md). -/

namespace Sys2Proof.Machine

/-- ENCODE, R150: the response is the frame of the payload; no state is read or written, no limit and no escape (R151,
R152). -/
def execEncode (payload : List Byte) (s : State) : Host.Outcome State Fault Refusal :=
  .next (s.respond (.bytes (encodeFrame payload)))

end Sys2Proof.Machine
end

