-- ==== Sys2Proof/Machine/Operands.lean ====
section
/-! DEFINITION. The fields of a collected body, as validation reads them (41_frame_parser.md R128 to R133). -/

namespace Sys2Proof.Machine

/-- R10, R128: `data = body[0 .. L-2]`, the payload without the checksum. -/
def bodyData (body : List Byte) : List Byte := body.take (body.length - 1)

/-- R128: `body[L-1]`, defined for a body that has a byte. -/
def receivedChecksum (body : List Byte) : Option Byte := body[body.length - 1]?

/-- R83, R130: `(data[2] << 8) | data[3]`, big endian, defined when both bytes exist. -/
def declaredLength (data : List Byte) : Option Nat :=
  match data[lenHiOff]?, data[lenLoOff]? with
  | some hi, some lo => some (hi.toNat <<< 8 ||| lo.toNat)
  | _, _ => none

/-- R131: `byte_count = crc_index - start_index - 1` with `crc_index = L - 1`; it may be negative. -/
def byteCount (body : List Byte) : Int := ((body.length : Int) - 1) - startIndex - 1

/-- R131: `Length_validation = byte_count + 8`, exact integers (decision D12; log 14). -/
def lengthValidation (body : List Byte) : Int := byteCount body + byteCountBias

/-- R133: what a valid frame with this `data` delivers, defined when `data` has a command byte. The sub-command is present
exactly when `data` has a byte at `SUB_OFF`. -/
def received (data : List Byte) : Option Received :=
  match data[cmdOff]? with
  | some c => some { command := c, subcommand := data[subOff]?, data := data }
  | none => none

end Sys2Proof.Machine
end

