-- ==== Sys2Proof/Machine/Flags.lean ====
section
/-! DEFINITION. The block has no flags and no condition codes (10_state.md R27). Here stand the conditions its operations
test and do not latch. -/

namespace Sys2Proof.Machine

/-- R92, R126: the table's `len` test. R120 appends while `len < C` and overflows otherwise (log 9). -/
def State.full (s : State) : Bool := !decide (s.len < s.cfg.capacity)

/-- R161 (1) and (2): a frame with bytes is in flight. -/
def State.inFlight (s : State) : Bool := s.mode == .collecting && decide (0 < s.len)

/-- R164, U1: the clock stands before the stamp. -/
def State.clockBehind (now : Nat) (s : State) : Bool := decide (now < s.lastByteTime)

/-- R161 (3): `now - last_byte_time > TIMEOUT_MS`, strictly. -/
def State.stalled (now : Nat) (s : State) : Bool := decide (now - s.lastByteTime > s.cfg.timeoutMs)

/-- R132: the received checksum is the computed one. -/
def checksumValid (body : List Byte) : Bool := receivedChecksum body == some (checksum (bodyData body))

/-- R131: `Length_validation == n`. -/
def lengthValid (body : List Byte) : Bool :=
  match declaredLength (bodyData body) with
  | some n => decide (lengthValidation body = (n : Int))
  | none => false

end Sys2Proof.Machine
end

