-- ==== Sys2Proof/Machine/Feed.lean ====
section
/-! DEFINITION. The Frame Engine's parser: frame validation, the five rows of the FEED decode, and FEED
(41_frame_parser.md). -/

namespace Sys2Proof.Machine

/-- R127 to R133: validation of the body that stands in the buffer when `END` arrives, its steps in the order of R132 and
R184. The last arm is not met: a body of five bytes has a command byte (`received_eq`). -/
def validate (body : List Byte) : Except ErrorKind Received :=
  if body.length < minBody then .error .frameTooShort
  else if !checksumValid body then .error .checksumMismatch
  else if !lengthValid body then .error .lengthMismatch
  else
    match received (bodyData body) with
    | some r => .ok r
    | none => .error .frameTooShort

/-- R92, R97: what every row of the FEED decode does: where the decode selects the row, it stamps (R121) and has its effect;
where the decode selects another row it has no meaning (log 7). -/
def runRow (cls : FeedClass) (byte : Byte) (now : Nat) (effect : State → State) (s : State) :
    Host.Outcome State Fault Refusal :=
  if feedClass s.mode byte s.full = cls then .next (effect (s.stamp now)) else .refused .feedRowNotSelected

/-- FEED.START, R122: `mode <- Collecting; clear(); return None`. -/
def execFeedStart (now : Nat) (s : State) : Host.Outcome State Fault Refusal :=
  runRow .start startByte now (fun t => (t.setMode .collecting).clear.respond (.event .none)) s

/-- FEED.NOISE, R123: `return None`. -/
def execFeedNoise (byte : Byte) (now : Nat) (s : State) : Host.Outcome State Fault Refusal :=
  runRow .noise byte now (fun t => t.respond (.event .none)) s

/-- FEED.END, R124, R135: validate the body, then `Idle` with an empty buffer whatever the outcome. -/
def execFeedEnd (now : Nat) (s : State) : Host.Outcome State Fault Refusal :=
  runRow .frameEnd endByte now
    (fun t =>
      match validate t.buffer with
      | .ok r => t.deliver r
      | .error k => t.raise k) s

/-- FEED.APPEND, R125: the byte is stored at index `len`; `return None`. -/
def execFeedAppend (byte : Byte) (now : Nat) (s : State) : Host.Outcome State Fault Refusal :=
  runRow .append byte now (fun t => (t.append byte).respond (.event .none)) s

/-- FEED.OVERFLOW, R126: `raise BufferOverflow`; the byte is dropped (decision D14; log 15). -/
def execFeedOverflow (byte : Byte) (now : Nat) (s : State) : Host.Outcome State Fault Refusal :=
  runRow .overflow byte now (fun t => t.raise .bufferOverflow) s

/-- FEED, R120, R97: the decode of the mode, the byte and the `len` test selects the row that runs. -/
def execFeed (byte : Byte) (now : Nat) (s : State) : Host.Outcome State Fault Refusal :=
  match feedClass s.mode byte s.full with
  | .start => execFeedStart now s
  | .noise => execFeedNoise byte now s
  | .frameEnd => execFeedEnd now s
  | .append => execFeedAppend byte now s
  | .overflow => execFeedOverflow byte now s

end Sys2Proof.Machine
end

