-- ==== Sys2Proof/Machine/Reset.lean ====
section
/-! DEFINITION. Forced reset (44_reset.md). -/

namespace Sys2Proof.Machine

/-- RESET, R170: `mode <- Idle; clear()`; no event, `last_byte_time` stays (decision D16). -/
def execReset (s : State) : Host.Outcome State Fault Refusal :=
  .next (s.toIdle.respond .nothing)

end Sys2Proof.Machine
end

