-- ==== Sys2Proof/Machine/Tick.lean ====
section
/-! DEFINITION. Timeout recovery (43_timeout_tick.md). -/

namespace Sys2Proof.Machine

/-- TICK, R160: a timeout when a frame with bytes is in flight and has stalled; nothing otherwise. R164, U1: with a frame in
flight a clock that stands before the stamp has no meaning. -/
def execTick (now : Nat) (s : State) : Host.Outcome State Fault Refusal :=
  if s.inFlight then
    if s.clockBehind now then .refused .clockBackwards
    else if s.stalled now then .next (s.raise .timeout)
    else .next (s.respond (.event .none))
  else .next (s.respond (.event .none))

end Sys2Proof.Machine
end

