-- ==== Sys2Proof/Machine/Dispatch.lean ====
section
/-! DEFINITION. One arm per constructor of `Instr`. -/

namespace Sys2Proof.Machine

def exec (i : Instr) (s : State) : Host.Outcome State Fault Refusal :=
  match i with
  | .csum span => Sys2Proof.Machine.execCsum span s
  | .feed byte now => Sys2Proof.Machine.execFeed byte now s
  | .encode payload => Sys2Proof.Machine.execEncode payload s
  | .tick now => Sys2Proof.Machine.execTick now s
  | .reset => Sys2Proof.Machine.execReset s
  | .feedStart now => Sys2Proof.Machine.execFeedStart now s
  | .feedNoise byte now => Sys2Proof.Machine.execFeedNoise byte now s
  | .feedEnd now => Sys2Proof.Machine.execFeedEnd now s
  | .feedAppend byte now => Sys2Proof.Machine.execFeedAppend byte now s
  | .feedOverflow byte now => Sys2Proof.Machine.execFeedOverflow byte now s

end Sys2Proof.Machine
end

