-- ==== Sys2Proof/Machine/Fetch.lean ====
section
/-! DEFINITION. Taking the next request of the host, and placing one (30_encoding.md R88, R89; 20_memory.md R59, R60). -/

namespace Sys2Proof.Machine

/-- R60, R114, R151: FEED and its rows, TICK and RESET touch the parser state and need exclusion; CSUM and ENCODE do not. -/
def touchesEngine : Instr → Bool
  | .csum _ => false
  | .feed _ _ => true
  | .encode _ => false
  | .tick _ => true
  | .reset => true
  | .feedStart _ => true
  | .feedNoise _ _ => true
  | .feedEnd _ => true
  | .feedAppend _ _ => true
  | .feedOverflow _ _ => true

/-- R228, R230, U3, U4: why an operation issued this way has no meaning; none when it has one. -/
def issueRefusal (issue : Issue) (i : Instr) : Option Refusal :=
  match issue with
  | .serial => none
  | .fromHandler => if touchesEngine i then some .reentrantOperation else none
  | .overlapping => if touchesEngine i then some .overlappingOperation else none

/-- The refusal of a rejected request. -/
def rejectRefusal : Reject → Refusal
  | .reservedOp op => .reservedOp op

/-- The engine takes the oldest request. -/
def State.dropPending (s : State) : State := { s with pending := s.pending.tail }

/-- The host issues a request that is taken before those already pending. -/
def State.issueFirst (p : Pending) (s : State) : State := { s with pending := p :: s.pending }

/-- The FEED request whose decode key (R92) is `key`, once the mode register holds the key's mode. -/
def keyRequest (key : FeedKey) : Request := { op := opFeed, byte := keyByte key, now := 0 }

/-- A table word placed where the next step takes its request: a request word is issued serially; a key word sets `mode`,
which is bit 8 of the key, and issues the FEED of its byte (log 8). -/
def placeTableWord (nbits w : Nat) (s : State) : State :=
  if isRequestWidth nbits then s.issueFirst { request := tableRequest w }
  else (s.setMode (keyMode (tableKey w))).issueFirst { request := keyRequest (tableKey w) }

end Sys2Proof.Machine
end

