-- ==== Sys2Proof/Machine/Step.lean ====
section
/-! DEFINITION. One step: the engine takes the oldest pending request, decodes it and executes it (00_scope.md R7). -/

namespace Sys2Proof.Machine

/-- R7, R59: one operation, atomically. With nothing pending nothing happens (R197; log 3). -/
def step (s : State) : Host.Outcome State Fault Refusal :=
  match s.pending with
  | [] => .next s
  | p :: _ =>
    match decodeRequest p.request with
    | .rejected why => .refused (rejectRefusal why)
    | .instr i =>
      match issueRefusal p.issue i with
      | some r => .refused r
      | none => exec i s.dropPending

/-- The state whose next step runs the table word (logs 1 and 8). -/
def State.withFetchWord (s : State) (nbits w : Nat) : State := placeTableWord nbits w s

end Sys2Proof.Machine
end

