-- ==== Sys2Proof/Machine/Sequences.lean ====
section
/-! DEFINITION. The notation for operation sequences of 30_encoding.md R96: the five operations as serial requests and the
pseudo-operations FEEDSEQ, SEND and FRAME. -/

namespace Sys2Proof.Machine

/-- `CSUM [..]`. -/
def csumReq (span : List Byte) : Pending := { request := { op := opCsum, span := span } }

/-- `FEED bb @t`. -/
def feedReq (byte : Byte) (now : Nat) : Pending := { request := { op := opFeed, byte := byte, now := now } }

/-- `ENCODE [..]`. -/
def encodeReq (payload : List Byte) : Pending := { request := { op := opEncode, payload := payload } }

/-- `TICK @t`. -/
def tickReq (now : Nat) : Pending := { request := { op := opTick, now := now } }

/-- `RESET`. -/
def resetReq : Pending := { request := { op := opReset } }

/-- `FEEDSEQ [b0 b1 .. bm] @t +d`. -/
def feedSeq : List Byte → Nat → Nat → List Pending
  | [], _, _ => []
  | b :: bs, t, d => feedReq b t :: feedSeq bs (t + d) d

/-- `SEND [p0 ..] @t +d`: the encoder looped back into the parser. -/
def sendSeq (p : List Byte) (t d : Nat) : List Pending := feedSeq (encodeFrame p) t d

/-- `FRAME [p0 ..]`: the byte sequence `3A p0 .. cs 7E`. -/
def frameBytes (p : List Byte) : List Byte := startByte :: p ++ [checksum p, endByte]

end Sys2Proof.Machine
end

