-- ==== Sys2Proof/Safety.lean ====
section
/-! DEFINITION. The terms claims use: the invariants of 10_state.md R24, legal responses, the host's duties, and runs. -/

namespace Sys2Proof.Machine

/-! ## What an operation is fed -/

/-- The byte a FEED or a row of the FEED decode consumes (R92). -/
def fedByte : Instr → Option Byte
  | .csum _ => none
  | .feed byte _ => some byte
  | .encode _ => none
  | .tick _ => none
  | .reset => none
  | .feedStart _ => some startByte
  | .feedNoise byte _ => some byte
  | .feedEnd _ => some endByte
  | .feedAppend byte _ => some byte
  | .feedOverflow byte _ => some byte

/-- The time operand of a FEED or a row of the FEED decode (R121). -/
def fedTime : Instr → Option Nat
  | .csum _ => none
  | .feed _ now => some now
  | .encode _ => none
  | .tick _ => none
  | .reset => none
  | .feedStart now => some now
  | .feedNoise _ now => some now
  | .feedEnd now => some now
  | .feedAppend _ now => some now
  | .feedOverflow _ now => some now

/-! ## Invariants -/

/-- R24 (a), (b) and the `END` clause of (c): the buffer fits its capacity, is empty in `Idle` and holds no `END`. -/
abbrev State.Inv (s : State) : Prop :=
  Memory.wf s.cfg s.buffer = true ∧ (s.mode = .idle → s.buffer = []) ∧ endByte ∉ s.buffer

/-- R87: the payloads that a frame delivers to an engine of this capacity. -/
abbrev Deliverable (cfg : Config) (p : List Byte) : Prop :=
  4 ≤ p.length ∧ p.length + 1 ≤ cfg.capacity ∧ endByte ∉ p ∧ checksum p ≠ endByte ∧
    256 * (p.getD 2 0).toNat + (p.getD 3 0).toNat = p.length + 3

/-- R87, R133: what a deliverable payload is received as. -/
def receivedOf (p : List Byte) : Received :=
  { command := p.getD 1 0, subcommand := if 6 ≤ p.length then some (p.getD 5 0) else none, data := p }

/-- R87, R90: every `Received` among the responses is that of a deliverable payload. -/
abbrev State.ResponsesLegal (s : State) : Prop :=
  ∀ r ∈ s.responses.filterMap Response.dispatched, Deliverable s.cfg r.data ∧ r = receivedOf r.data

/-! ## The host's duties (R196) -/

/-- The requests CSUM and ENCODE (R114, R151). -/
def Pending.isPure (p : Pending) : Bool := p.request.op == opCsum || p.request.op == opEncode

/-- A request that names an operation and is issued as R196 allows: CSUM and ENCODE at any time, FEED, TICK and RESET
serially. -/
abbrev Pending.proper (p : Pending) : Prop := p.request.op.toNat < 5 ∧ (p.isPure = true ∨ p.issue = .serial)

/-- The clock reading a request carries, when it is a FEED or a TICK. -/
def Pending.clock (p : Pending) : Option Nat :=
  if p.request.op = opFeed ∨ p.request.op = opTick then some p.request.now else none

/-- R196, R164, R232: every pending request is proper, and the `now` of no FEED or TICK is less than any earlier one;
`earlier` are the readings of the FEEDs and TICKs already taken, none after construction. -/
abbrev State.HostDuties (earlier : List Nat) (s : State) : Prop :=
  (∀ p ∈ s.pending, p.proper) ∧ (earlier ++ s.pending.filterMap Pending.clock).Pairwise (· ≤ ·)

/-- What R24 (d) says of the readings already taken: with a frame with bytes in flight, `last_byte_time` is one of them. -/
abbrev State.StampAmong (earlier : List Nat) (s : State) : Prop :=
  s.mode = .collecting → s.buffer ≠ [] → s.lastByteTime ∈ earlier

/-- The responses of the operations that are not CSUM or ENCODE. -/
def Response.ofEngine : Response → Bool
  | .byte _ => false
  | .event _ => true
  | .bytes _ => false
  | .nothing => true

/-- The byte a request feeds, when it is a FEED. -/
def Pending.feedByte (p : Pending) : Option Byte := if p.request.op = opFeed then some p.request.byte else none

/-- The stamp a request feeds, when it is a FEED. -/
def Pending.feedTime (p : Pending) : Option Nat := if p.request.op = opFeed then some p.request.now else none

/-! ## Runs -/

/-- `k` steps from `s` end in `t`, none of them refused: a safe run (R188, R197). -/
def RunsTo (k : Nat) (s t : State) : Prop := Host.Core.run Sys2Proof.core k s = .next t

end Sys2Proof.Machine
end

