-- ==== Sys2Proof/Certificates/Slice0/Obligations.lean ====
section
/-! DEFINITION. The statements for the provers. Each docstring names the rule of spec/ it formalises and, where it rests on
a choice the spec marks as its own (D<n>) or on one of the model's (log <n>), says so. The fields `pending` and `responses`
in which requests stand and responses are given are the model's throughout (logs 1 and 2). -/

open Sys2Proof Sys2Proof.Machine

/-! ## Checksum Unit and encoder -/

/-- R111 (and R114): CSUM answers the sum of the span's bytes modulo 256, in every state and for every span, and changes
nothing else. -/
def Obligations.CsumRespondsWithByteSum : Prop :=
  ∀ (span : List Byte) (s : State),
    exec (.csum span) s =
      .next { s with responses := s.responses ++ [.byte (BitVec.ofNat 8 (span.map BitVec.toNat).sum)] }

/-- R112: the corner cases of the checksum. -/
def Obligations.ChecksumCornerCases : Prop :=
  checksum [] = 0x00 ∧ (∀ b, checksum [b] = b) ∧ checksum [0xFF, 0x01] = 0x00 ∧ checksum [0x80, 0x80] = 0x00 ∧
    checksum [0xFF, 0xFF, 0xFF] = 0xFD ∧ (∀ s, checksum (s ++ [0x00]) = checksum s) ∧
    checksum ((List.range 256).map (BitVec.ofNat 8)) = 0x80 ∧ checksum (List.replicate 256 0xFF) = 0x00

/-- R113: permutation invariance, concatenation, appending, and two errors that cancel modulo 256 (`d` added to one byte
and taken from another). -/
def Obligations.ChecksumLaws : Prop :=
  (∀ s t : List Byte, s.Perm t → checksum s = checksum t) ∧
    (∀ s t : List Byte, checksum (s ++ t) = checksum s + checksum t) ∧
    (∀ (s : List Byte) (b : Byte), checksum (s ++ [b]) = checksum s + b) ∧
    (∀ (u v w : List Byte) (x y d : Byte),
      checksum (u ++ [x + d] ++ v ++ [y - d] ++ w) = checksum (u ++ [x] ++ v ++ [y] ++ w))

/-- R152: ENCODE frames every payload as it is given, whatever its length and its bytes, and changes nothing else. -/
def Obligations.EncodeFramesAnyPayload : Prop :=
  ∀ (p : List Byte) (s : State),
    exec (.encode p) s =
      .next { s with responses := s.responses ++
        [.bytes ([0x3A] ++ p ++ [BitVec.ofNat 8 (p.map BitVec.toNat).sum] ++ [0x7E])] }

/-! ## The rows of the FEED decode. Each stamps `last_byte_time` (R121, decisions D3 and D15). -/

/-- R122: FEED.START opens a frame. -/
def Obligations.FeedStartOpensFrame : Prop :=
  ∀ (s : State) (now : Nat), s.mode = .idle →
    exec (.feedStart now) s =
      .next { s with mode := .collecting, buffer := [], lastByteTime := now,
                     responses := s.responses ++ [.event .none] }

/-- R123: FEED.NOISE discards the byte silently; `mode` and the buffer are unchanged. -/
def Obligations.FeedNoiseIsDiscarded : Prop :=
  ∀ (s : State) (b : Byte) (now : Nat), s.mode = .idle → b ≠ 0x3A →
    exec (.feedNoise b now) s = .next { s with lastByteTime := now, responses := s.responses ++ [.event .none] }

/-- R125, R51: FEED.APPEND stores the byte at index `len`; every other index of the buffer reads as before, and so does
the rest of the state. -/
def Obligations.FeedAppendStoresAtLen : Prop :=
  ∀ (s : State) (b : Byte) (now : Nat), s.mode = .collecting → b ≠ 0x7E → s.len < s.cfg.capacity →
    ∃ t : State, exec (.feedAppend b now) s = .next t ∧
      t = { s with buffer := t.buffer, lastByteTime := now, responses := s.responses ++ [.event .none] } ∧
      t.len = s.len + 1 ∧ t.memRead s.len = some b ∧ ∀ j, j ≠ s.len → t.memRead j = s.memRead j

/-- R126: FEED.OVERFLOW raises `BufferOverflow` and drops the byte and the frame, also for `0x3A` (decision D14). The
premise is the table's `len == C`, with the states `len > C` that no run reaches (log 9). -/
def Obligations.FeedOverflowDropsFrame : Prop :=
  ∀ (s : State) (b : Byte) (now : Nat), s.mode = .collecting → b ≠ 0x7E → s.cfg.capacity ≤ s.len →
    exec (.feedOverflow b now) s =
      .next { s with mode := .idle, buffer := [], lastByteTime := now,
                     responses := s.responses ++ [.event (.error .bufferOverflow)] }

/-- R127: a body of fewer than five bytes, whatever they are, is reported `FrameTooShort` and discarded. -/
def Obligations.ShortBodyIsTooShort : Prop :=
  ∀ (s : State) (now : Nat), s.mode = .collecting → s.len < 5 →
    ∃ t : State, exec (.feedEnd now) s = .next t ∧ t.mode = .idle ∧ t.buffer = [] ∧ t.cfg = s.cfg ∧
      t.pending = s.pending ∧ t.responses = s.responses ++ [.event (.error .frameTooShort)]

/-- R132, R184 (decision D11): the body `data || [c]` with a wrong checksum is reported `ChecksumMismatch` whatever its
declared length; with the right checksum and a declared length other than `L + 2 = |data| + 3`, `LengthMismatch`. -/
def Obligations.FailedChecksReportInOrder : Prop :=
  ∀ (s : State) (now : Nat) (data : List Byte) (c : Byte), s.mode = .collecting → s.buffer = data ++ [c] →
    4 ≤ data.length →
    (c ≠ BitVec.ofNat 8 (data.map BitVec.toNat).sum →
      exec (.feedEnd now) s =
        .next { s with mode := .idle, buffer := [], lastByteTime := now,
                       responses := s.responses ++ [.event (.error .checksumMismatch)] }) ∧
    (c = BitVec.ofNat 8 (data.map BitVec.toNat).sum →
      256 * (data.getD 2 0).toNat + (data.getD 3 0).toNat ≠ data.length + 3 →
      exec (.feedEnd now) s =
        .next { s with mode := .idle, buffer := [], lastByteTime := now,
                       responses := s.responses ++ [.event (.error .lengthMismatch)] })

/-- R133: a valid body delivers `command = data[1]`, `subcommand = data[5]` exactly when `data` has six bytes or more, and
the whole `data`, at the offsets of 90_conflicts.md C1 (log 13); the dispatch layer and the raw-bytes output of R134 read that
event (decision D13, log 18). -/
def Obligations.ValidFrameIsDelivered : Prop :=
  ∀ (s : State) (now : Nat) (data : List Byte) (c : Byte), s.mode = .collecting → s.buffer = data ++ [c] →
    4 ≤ data.length → c = BitVec.ofNat 8 (data.map BitVec.toNat).sum →
    256 * (data.getD 2 0).toNat + (data.getD 3 0).toNat = data.length + 3 →
    ∃ (t : State) (r : Received), exec (.feedEnd now) s = .next t ∧ t.mode = .idle ∧ t.buffer = [] ∧
      t.cfg = s.cfg ∧ t.pending = s.pending ∧ t.responses = s.responses ++ [.event (.received r)] ∧
      data[1]? = some r.command ∧ r.data = data ∧ (6 ≤ data.length → r.subcommand = data[5]?) ∧
      (data.length < 6 → r.subcommand = none) ∧
      Response.dispatched (.event (.received r)) = some r ∧ Response.rawBytes (.event (.received r)) = some data

/-- R135: after `END` the engine is in `Idle` with an empty buffer, valid frame or not; the event is not `None`; and nothing
of the frame remains in the state, which but for the responses is the same whatever was collected. -/
def Obligations.EndAlwaysReturnsToIdle : Prop :=
  ∀ (s : State) (now : Nat), s.mode = .collecting →
    ∃ (t : State) (ev : Event), exec (.feedEnd now) s = .next t ∧ exec (.feed 0x7E now) s = .next t ∧
      t.mode = .idle ∧ t.buffer = [] ∧ t.cfg = s.cfg ∧ t.pending = s.pending ∧
      t.responses = s.responses ++ [.event ev] ∧ ev ≠ .none ∧
      ∀ (body : List Byte) (u : State), exec (.feedEnd now) { s with buffer := body } = .next u →
        u = { t with responses := u.responses }

/-- R136: in `Collecting` the byte `0x3A` is appended like any other byte than `END`, or overflows like any other. -/
def Obligations.StartInsideFrameIsData : Prop :=
  ∀ (s : State) (now : Nat), s.mode = .collecting →
    ∃ t : State, exec (.feed 0x3A now) s = .next t ∧ t.cfg = s.cfg ∧ t.pending = s.pending ∧
      (s.len < s.cfg.capacity →
        t.mode = .collecting ∧ t.buffer = s.buffer ++ [0x3A] ∧ t.responses = s.responses ++ [.event .none]) ∧
      (s.len = s.cfg.capacity →
        t.mode = .idle ∧ t.buffer = [] ∧ t.responses = s.responses ++ [.event (.error .bufferOverflow)])

/-! ## FEED as a whole -/

/-- R92, R97, R120, R138: FEED is the row that the mode, the byte and `len` select, in every state, and it always answers a
next state. -/
def Obligations.FeedRunsTheSelectedRow : Prop :=
  ∀ (s : State) (b : Byte) (now : Nat),
    exec (.feed b now) s =
      exec (match s.mode with
        | .idle => if b = 0x3A then .feedStart now else .feedNoise b now
        | .collecting =>
          if b = 0x7E then .feedEnd now
          else if s.len < s.cfg.capacity then .feedAppend b now else .feedOverflow b now) s ∧
    ∃ t : State, exec (.feed b now) s = .next t

/-- The model's choice (log 7): a row executed where the decode of R92 does not select it has no meaning. -/
def Obligations.RowsRunOnlyWhereSelected : Prop :=
  ∀ (s : State) (b : Byte) (now : Nat),
    (s.mode ≠ .idle → exec (.feedStart now) s = .refused .feedRowNotSelected) ∧
    (¬ (s.mode = .idle ∧ b ≠ 0x3A) → exec (.feedNoise b now) s = .refused .feedRowNotSelected) ∧
    (s.mode ≠ .collecting → exec (.feedEnd now) s = .refused .feedRowNotSelected) ∧
    (¬ (s.mode = .collecting ∧ b ≠ 0x7E ∧ s.len < s.cfg.capacity) →
      exec (.feedAppend b now) s = .refused .feedRowNotSelected) ∧
    (¬ (s.mode = .collecting ∧ b ≠ 0x7E ∧ s.cfg.capacity ≤ s.len) →
      exec (.feedOverflow b now) s = .refused .feedRowNotSelected)

/-- R137: which events a FEED can answer, by the row it selects; never `Error{Timeout}`. FEED.OVERFLOW's
`len == C` is read as not `len < C`, which differs in states with `len > C` that no run reaches (log 9). -/
def Obligations.FeedEventsByRow : Prop :=
  ∀ (s : State) (b : Byte) (now : Nat),
    ∃ (t : State) (ev : Event), exec (.feed b now) s = .next t ∧ t.responses = s.responses ++ [.event ev] ∧
      (s.mode = .idle → ev = .none) ∧
      (s.mode = .collecting → b ≠ 0x7E → s.len < s.cfg.capacity → ev = .none) ∧
      (s.mode = .collecting → b ≠ 0x7E → s.cfg.capacity ≤ s.len → ev = .error .bufferOverflow) ∧
      (s.mode = .collecting → b = 0x7E →
        (∃ r, ev = .received r) ∨ ev = .error .frameTooShort ∨ ev = .error .checksumMismatch ∨
          ev = .error .lengthMismatch) ∧
      ev ≠ .error .timeout

/-! ## Rules over every operation -/

/-- R121, R165, R170 (decisions D3, D15, D16): a FEED and its rows leave their own `now` in `last_byte_time`; no other
operation writes it. -/
def Obligations.OnlyFeedStampsTime : Prop :=
  ∀ (i : Instr) (s t : State), exec i s = .next t → t.lastByteTime = (fedTime i).getD s.lastByteTime

/-- R51: the only write is the append of a byte other than `END` at index `len`, by FEED in `Collecting` while capacity
remains; between clears a stored byte is never overwritten. -/
def Obligations.BufferIsAppendOnly : Prop :=
  ∀ (i : Instr) (s t : State), exec i s = .next t →
    (t.buffer = s.buffer ∨ t.buffer = [] ∨
      ∃ b, fedByte i = some b ∧ b ≠ 0x7E ∧ s.mode = .collecting ∧ s.len < s.cfg.capacity ∧
        t.buffer = s.buffer ++ [b]) ∧
    (t.buffer ≠ [] → ∀ j, j < s.len → t.memRead j = s.memRead j)

/-- R53: `START` from `Idle`, `END`, an overflow, a timeout and RESET leave the buffer empty, and nothing else empties a
buffer that holds bytes. An overflow is read as not `len < C`, which differs from the table's `len == C` in states with
`len > C` that no run reaches (log 9). -/
def Obligations.BufferIsClearedExactlyThen : Prop :=
  ∀ (i : Instr) (s t : State), exec i s = .next t →
    ((i = .reset ∨
        (∃ now, i = .tick now ∧ s.mode = .collecting ∧ s.cfg.timeoutMs < now - s.lastByteTime) ∨
        (∃ b, fedByte i = some b ∧
          (s.mode = .idle ∧ b = 0x3A ∨ s.mode = .collecting ∧ b = 0x7E ∨
            s.mode = .collecting ∧ b ≠ 0x7E ∧ s.cfg.capacity ≤ s.len))) →
      t.buffer = []) ∧
    (s.buffer ≠ [] → t.buffer = [] →
      i = .reset ∨
        (∃ now, i = .tick now ∧ s.mode = .collecting ∧ s.cfg.timeoutMs < now - s.lastByteTime) ∨
        (∃ b, fedByte i = some b ∧
          (s.mode = .idle ∧ b = 0x3A ∨ s.mode = .collecting ∧ b = 0x7E ∨
            s.mode = .collecting ∧ b ≠ 0x7E ∧ s.cfg.capacity ≤ s.len)))

/-- R185: an operation that answers an error leaves `Idle`, an empty buffer, and `last_byte_time` as it gave it (FEED) or
found it (TICK); nothing else of the state changes. -/
def Obligations.RaisingAnErrorResetsLocally : Prop :=
  ∀ (i : Instr) (s t : State) (k : ErrorKind), exec i s = .next t →
    t.responses = s.responses ++ [.event (.error k)] →
    t.mode = .idle ∧ t.buffer = [] ∧ t.cfg = s.cfg ∧ t.pending = s.pending ∧
      t.lastByteTime = (fedTime i).getD s.lastByteTime

/-- R195: `Received` is answered only to the FEED of an `END` byte in `Collecting`, and leaves `Idle` and an empty buffer. -/
def Obligations.ReceivedOnlyFromEnd : Prop :=
  ∀ (i : Instr) (s t : State) (r : Received), exec i s = .next t →
    t.responses = s.responses ++ [.event (.received r)] →
    fedByte i = some 0x7E ∧ s.mode = .collecting ∧ t.mode = .idle ∧ t.buffer = []

/-- R7, R11, R59, R89: an operation gives exactly one response, of its own type, after those already given; the
configuration (R28) and the requests still pending stay. The two queues are the model's (logs 1 and 2). -/
def Obligations.OneResponsePerOperation : Prop :=
  ∀ (i : Instr) (s t : State), exec i s = .next t →
    ∃ r : Response, t.responses = s.responses ++ [r] ∧ t.cfg = s.cfg ∧ t.pending = s.pending ∧
      (∀ span, i = .csum span → ∃ b, r = .byte b) ∧
      (∀ p, i = .encode p → ∃ bs, r = .bytes bs ∧ bs.length = p.length + 3) ∧
      (i = .reset → r = .nothing) ∧
      (∀ now, i = .tick now → r = .event .none ∨ r = .event (.error .timeout)) ∧
      ((fedByte i).isSome = true → ∃ e, r = .event e ∧ e ≠ .error .timeout)

/-! ## TICK and RESET -/

/-- R162: a timeout resets to `Idle` and an empty buffer, answers `Error{Timeout}` and leaves `last_byte_time`. -/
def Obligations.TickReportsTimeout : Prop :=
  ∀ (s : State) (now : Nat), s.mode = .collecting → 0 < s.len → s.cfg.timeoutMs < now - s.lastByteTime →
    exec (.tick now) s =
      .next { s with mode := .idle, buffer := [], responses := s.responses ++ [.event (.error .timeout)] }

/-- R161: the three conjuncts of the timeout condition, the third one strict, within the host's duty that the clock has not
gone back (R164); the default timeout is 100. -/
def Obligations.TimeoutCondition : Prop :=
  Config.default.timeoutMs = 100 ∧
  ∀ (s : State) (now : Nat), s.lastByteTime ≤ now →
    ∃ (t : State) (ev : Event), exec (.tick now) s = .next t ∧ t.responses = s.responses ++ [.event ev] ∧
      (ev = .error .timeout ↔
        s.mode = .collecting ∧ 0 < s.len ∧ now - s.lastByteTime > s.cfg.timeoutMs)

/-- R160, R163: in `Idle`, with an empty buffer, or before the timeout has passed, TICK changes no state. -/
def Obligations.TickOtherwiseChangesNothing : Prop :=
  ∀ (s : State) (now : Nat),
    s.mode = .idle ∨ s.buffer = [] ∨ s.lastByteTime ≤ now ∧ now - s.lastByteTime ≤ s.cfg.timeoutMs →
    exec (.tick now) s = .next { s with responses := s.responses ++ [.event .none] }

/-- R164, U1: a TICK whose clock stands before the stamp while a frame with bytes is in flight has no meaning. -/
def Obligations.TickRefusesClockGoneBack : Prop :=
  ∀ (s : State) (now : Nat), s.mode = .collecting → 0 < s.len → now < s.lastByteTime →
    exec (.tick now) s = .refused .clockBackwards

/-- R170 (decision D16; the response entry is the model's, log 2): RESET forces `Idle` and an empty buffer, in every
state, and writes nothing else. -/
def Obligations.ResetForcesIdle : Prop :=
  ∀ s : State,
    exec .reset s = .next { s with mode := .idle, buffer := [], responses := s.responses ++ [.nothing] }

/-- R171: two RESETs in a row leave `Idle` and an empty buffer both times; RESET in `Idle` changes nothing (the buffer is
empty there, R24 (b)). -/
def Obligations.ResetTwiceIsResetOnce : Prop :=
  (∀ s : State, ∃ t u : State, exec .reset s = .next t ∧ exec .reset t = .next u ∧
    t.mode = .idle ∧ t.buffer = [] ∧ u.mode = .idle ∧ u.buffer = [] ∧
    u = { t with responses := u.responses }) ∧
  (∀ s : State, s.Inv → s.mode = .idle →
    ∃ t : State, exec .reset s = .next t ∧ t = { s with responses := t.responses })

/-! ## Construction and invariants -/

/-- R32, R221 (decision D7): construction leaves `Idle` and an empty buffer, whatever the configuration and whatever
`last_byte_time` holds; `State.reset` is such a state with `TIMEOUT_MS = 100`. -/
def Obligations.ConstructionState : Prop :=
  (∀ (cfg : Config) (t : Nat), (State.construct cfg t).mode = .idle ∧ (State.construct cfg t).buffer = [] ∧
    (State.construct cfg t).len = 0 ∧ (State.construct cfg t).cfg = cfg) ∧
  State.reset.mode = .idle ∧ State.reset.buffer = [] ∧ State.reset.cfg.timeoutMs = 100

/-- R24: the invariants hold at construction, for every configuration. -/
def Obligations.ConstructionMeetsInv : Prop :=
  (∀ (cfg : Config) (t : Nat), (State.construct cfg t).Inv) ∧ State.reset.Inv ∧ State.reset.ResponsesLegal

/-- R24 (a), (b), (c): every step keeps the invariants, from every state that meets them. -/
def Obligations.StepKeepsInv : Prop :=
  ∀ s t : State, s.Inv → step s = .next t → t.Inv

/-- R87, R90: every step keeps it true that each `Received` answered so far is that of a deliverable payload. -/
def Obligations.StepKeepsResponsesLegal : Prop :=
  ∀ s t : State, s.Inv → s.ResponsesLegal → step s = .next t → t.ResponsesLegal

/-! ## Encodings and the step -/

/-- R7, R88: the step takes the oldest request and executes the operation it decodes to, on the state without that request;
with nothing pending it changes nothing (log 3). -/
def Obligations.StepRunsTheDecodedRequest : Prop :=
  (∀ (s : State) (r : Request) (rest : List Pending) (i : Instr),
    s.pending = { issue := .serial, request := r } :: rest → decodeRequest r = .instr i →
    step s = exec i { s with pending := rest }) ∧
  (∀ s : State, s.pending = [] → step s = .next s)

/-- R93, U5: `op` 5, 6 and 7 are refused in every state, however issued; every other code names an operation. -/
def Obligations.ReservedCodesAreRefused : Prop :=
  (∀ (s : State) (p : Pending) (rest : List Pending), s.pending = p :: rest → 5 ≤ p.request.op.toNat →
    step s = .refused (.reservedOp p.request.op)) ∧
  (∀ r : Request, r.op.toNat < 5 → ∃ i, decodeRequest r = .instr i)

/-- R60, R114, R151, R230 (U3, U4; the form is the model's, log 11): FEED, TICK and RESET issued from inside an event's
handling or while another operation runs have no meaning; CSUM and ENCODE run as always. -/
def Obligations.OnlyPureOperationsRunUnserialised : Prop :=
  ∀ (s : State) (p : Pending) (rest : List Pending) (i : Instr), s.pending = p :: rest →
    decodeRequest p.request = .instr i →
    ((p.request.op = 0b000 ∨ p.request.op = 0b010) → step s = exec i { s with pending := rest }) ∧
    (p.request.op = 0b001 ∨ p.request.op = 0b011 ∨ p.request.op = 0b100 →
      (p.issue = .fromHandler → step s = .refused .reentrantOperation) ∧
      (p.issue = .overlapping → step s = .refused .overlappingOperation))

/-- R88, R92 (codes: decisions D2, D8): words written out from the tables decode to the operations they stand for; the
reserved code 5 to none. -/
def Obligations.WrittenWordsDecode : Prop :=
  decodeTableWord 8 0b000 = some (.csum []) ∧ decodeTableWord 8 0b001 = some (.feed 0x00 0) ∧
    decodeTableWord 8 0b010 = some (.encode []) ∧ decodeTableWord 8 0b011 = some (.tick 0) ∧
    decodeTableWord 8 0b100 = some .reset ∧ decodeTableWord 8 0b101 = none ∧
    decodeTableWord 16 0b000111010 = some (.feedStart 0) ∧ decodeTableWord 16 0b001111110 = some (.feedNoise 0x7E 0) ∧
    decodeTableWord 16 0b101111110 = some (.feedEnd 0) ∧ decodeTableWord 16 0b100111010 = some (.feedAppend 0x3A 0) ∧
    decode (.key 0b100111010 true 7) = .instr (.feedOverflow 0x3A 7)

/-- R88, R89, R92: decoding inverts encoding on every well-formed operation with every operand; only well-formed operations
are decoded; and a key that decodes to an operation is the key the encoder writes for it. -/
def Obligations.DecodeInvertsEncode : Prop :=
  (∀ i : Instr, i.wellFormed = true → decode (encode i) = .instr i) ∧
  (∀ (e : Encoded) (i : Instr), decode e = .instr i → i.wellFormed = true) ∧
  (∀ (k : FeedKey) (full : Bool) (now : Nat) (i : Instr), decode (.key k full now) = .instr i →
    ∃ f, encode i = .key k f now)

/-- R92, R97: for every key and outcome of the `len` test, the first row of the table that matches is the one decoded. -/
def Obligations.FeedDecodeIsFirstMatch : Prop :=
  ∀ (k : FeedKey) (full : Bool),
    (feedRows.find? fun row => row.matchesKey k full).map FeedRow.cls =
      some (feedClass (keyMode k) (keyByte k) full)

/-- R89: operands that are not listed for an operation are ignored by it. -/
def Obligations.UnlistedOperandsAreIgnored : Prop :=
  ∀ r q : Request, r.op = q.op → (r.op = 0b000 → r.span = q.span) → (r.op = 0b001 → r.byte = q.byte) →
    (r.op = 0b001 ∨ r.op = 0b011 → r.now = q.now) → (r.op = 0b010 → r.payload = q.payload) →
    decodeRequest r = decodeRequest q

/-- R90 (codes: decision D9): the fields of an event give the event back; `ev` is never 3 and a kind is never 0, 6 or 7. -/
def Obligations.EventFieldsGiveTheEvent : Prop :=
  (∀ e : Event, e.word.event = some e ∧ e.word.ev ≠ 3) ∧
  (∀ k : ErrorKind, 1 ≤ k.code.toNat ∧ k.code.toNat ≤ 5 ∧ (Event.error k).word.kind = some k.code) ∧
  (∀ r : Received, (Event.received r).word.subValid = some (if r.subcommand = none then 0 else 1))

/-- R133, R134, R182, R187: the dispatch layer reads a `Received`, the raw-bytes output is its `data`, the logging
collaborator reads an error's kind, and nobody reads anything else of an event. -/
def Obligations.ConsumersOfAnEvent : Prop :=
  ∀ e : Event,
    (Response.dispatched (.event e)).map Received.data = Response.rawBytes (.event e) ∧
    (∀ r, Response.dispatched (.event e) = some r ↔ e = .received r) ∧
    (∀ k, Response.logged (.event e) = some k ↔ e = .error k)

/-! ## Runs -/

/-- R153: fed to an engine in `Idle`, the bytes of `ENCODE(p)` give exactly one event, the `Received` of `p`, from the last
FEED, and leave `Idle`, for every payload `p` that meets the exact preconditions and whatever is fed after. -/
def Obligations.EncodedFrameIsReceivedBack : Prop :=
  ∀ (s : State) (p : List Byte) (t d : Nat) (rest : List Pending), s.mode = .idle → Deliverable s.cfg p →
    s.pending = sendSeq p t d ++ rest →
    RunsTo (p.length + 3) s
      { s with
        buffer := []
        lastByteTime := t + (p.length + 2) * d
        pending := rest
        responses := s.responses ++ List.replicate (p.length + 2) (.event .none) ++
          [.event (.received (receivedOf p))] }

/-- R87, R124, R132: a body without `END` that fits the buffer is judged at its `END`: exactly one event, `Received` exactly
when the body is a deliverable payload and its checksum, and otherwise the error of R181, in the order of R184. -/
def Obligations.BodyIsJudgedAtEnd : Prop :=
  ∀ (s : State) (body : List Byte) (t d : Nat) (rest : List Pending), s.mode = .idle → (0x7E : Byte) ∉ body →
    body.length ≤ s.cfg.capacity → s.pending = feedSeq ([0x3A] ++ body ++ [0x7E]) t d ++ rest →
    ∃ (u : State) (ev : Event), RunsTo (body.length + 2) s u ∧ u.mode = .idle ∧ u.buffer = [] ∧
      u.cfg = s.cfg ∧ u.pending = rest ∧
      u.responses = s.responses ++ List.replicate (body.length + 1) (.event .none) ++ [.event ev] ∧
      (∀ r, ev = .received r ↔
        ∃ p, body = p ++ [checksum p] ∧ Deliverable s.cfg p ∧ r = receivedOf p) ∧
      (ev = .error .frameTooShort ↔ body.length < 5) ∧
      (ev = .error .checksumMismatch ↔
        ∃ p c, body = p ++ [c] ∧ 4 ≤ p.length ∧ c ≠ checksum p) ∧
      (ev = .error .lengthMismatch ↔
        ∃ p, body = p ++ [checksum p] ∧ 4 ≤ p.length ∧
          256 * (p.getD 2 0).toNat + (p.getD 3 0).toNat ≠ p.length + 3)

/-- R154: the failing sides of the round trip, for a payload without `END` whose checksum is not `END`: too short, length
mismatch, overflow at the `(C+1)`-th byte after `START`; and, for a payload with `END`, the part before it judged at once.
The first clause adds to R154's `|p| <= 3` that the body fits the buffer, else the third clause applies. -/
def Obligations.EncodedFrameFails : Prop :=
  (∀ (s : State) (p : List Byte) (t d : Nat) (rest : List Pending), s.mode = .idle → (0x7E : Byte) ∉ p →
    checksum p ≠ 0x7E → s.pending = sendSeq p t d ++ rest →
    (p.length ≤ 3 → p.length + 1 ≤ s.cfg.capacity →
      ∃ u : State, RunsTo (p.length + 3) s u ∧ u.mode = .idle ∧ u.pending = rest ∧
        u.responses = s.responses ++ List.replicate (p.length + 2) (.event .none) ++
          [.event (.error .frameTooShort)]) ∧
    (4 ≤ p.length → p.length + 1 ≤ s.cfg.capacity →
      256 * (p.getD 2 0).toNat + (p.getD 3 0).toNat ≠ p.length + 3 →
      ∃ u : State, RunsTo (p.length + 3) s u ∧ u.mode = .idle ∧ u.pending = rest ∧
        u.responses = s.responses ++ List.replicate (p.length + 2) (.event .none) ++
          [.event (.error .lengthMismatch)]) ∧
    (s.cfg.capacity ≤ p.length →
      ∃ u : State, RunsTo (s.cfg.capacity + 2) s u ∧ u.mode = .idle ∧ u.buffer = [] ∧
        u.pending = s.pending.drop (s.cfg.capacity + 2) ∧
        u.responses = s.responses ++ List.replicate (s.cfg.capacity + 1) (.event .none) ++
          [.event (.error .bufferOverflow)])) ∧
  (∀ (s : State) (p q : List Byte) (t d : Nat) (rest : List Pending), s.mode = .idle → (0x7E : Byte) ∉ p →
    p.length ≤ s.cfg.capacity → s.pending = sendSeq (p ++ [0x7E] ++ q) t d ++ rest →
    ∃ (u : State) (ev : Event), RunsTo (p.length + 2) s u ∧ u.mode = .idle ∧ u.buffer = [] ∧
      u.pending = s.pending.drop (p.length + 2) ∧ ev ≠ .none ∧
      u.responses = s.responses ++ List.replicate (p.length + 1) (.event .none) ++ [.event ev])

/-- R126, 95_test_vectors.md S6 and section 4.7: after `START`, `C + 1` bytes other than `END` give exactly one
`BufferOverflow`, from the last of them, and the engine is in `Idle`. -/
def Obligations.OverflowAtCapacityPlusOne : Prop :=
  ∀ (s : State) (w : List Byte) (t d : Nat) (rest : List Pending), s.mode = .idle → (0x7E : Byte) ∉ w →
    w.length = s.cfg.capacity + 1 → s.pending = feedSeq ([0x3A] ++ w) t d ++ rest →
    ∃ u : State, RunsTo (s.cfg.capacity + 2) s u ∧ u.mode = .idle ∧ u.buffer = [] ∧ u.pending = rest ∧
      u.responses = s.responses ++ List.replicate (s.cfg.capacity + 1) (.event .none) ++
        [.event (.error .bufferOverflow)]

/-- R139: deliverable frames back to back, with any noise before each, give one `Received` per frame in order, and no error;
the engine ends in `Idle`. -/
def Obligations.FramesBackToBack : Prop :=
  ∀ (frames : List (List Byte × List Byte)) (s : State) (t d : Nat) (rest : List Pending), s.mode = .idle →
    (∀ f ∈ frames, (0x3A : Byte) ∉ f.1 ∧ Deliverable s.cfg f.2) →
    s.pending = feedSeq (frames.flatMap fun f => f.1 ++ frameBytes f.2) t d ++ rest →
    ∃ (u : State) (given : List Response),
      RunsTo (frames.flatMap fun f => f.1 ++ frameBytes f.2).length s u ∧ u.mode = .idle ∧ u.pending = rest ∧
      u.responses = s.responses ++ given ∧
      given.filterMap Response.dispatched = frames.map (fun f => receivedOf f.2) ∧
      given.filterMap Response.logged = []

/-- R23, U8: while no frame with bytes is in flight the value of `last_byte_time` influences no response, no refusal, and
neither `mode` nor the buffer, however many operations follow. -/
def Obligations.StampIsUnobservable : Prop :=
  ∀ (s : State) (v : Nat) (k : Nat), s.mode = .idle ∨ s.buffer = [] →
    (∀ t, RunsTo k s t →
      ∃ u, RunsTo k { s with lastByteTime := v } u ∧ u = { t with lastByteTime := u.lastByteTime }) ∧
    (∀ r, Host.Core.run Sys2Proof.core k s = .refused r →
      Host.Core.run Sys2Proof.core k { s with lastByteTime := v } = .refused r)

/-- R114, R151: CSUM and ENCODE, issued anywhere between other operations, change nothing of what the others leave and
answer. -/
def Obligations.PureOperationsDoNotDisturb : Prop :=
  ∀ s t : State, RunsTo s.pending.length s t →
    ∃ u : State, RunsTo (s.pending.filter fun p => !p.isPure).length
        { s with pending := s.pending.filter fun p => !p.isPure } u ∧
      u.mode = t.mode ∧ u.buffer = t.buffer ∧ u.lastByteTime = t.lastByteTime ∧ u.cfg = t.cfg ∧
      u.responses.filter Response.ofEngine = t.responses.filter Response.ofEngine

/-- R196, R24 (d): a step keeps the host's duties, with the clock reading of the request it takes among the earlier ones,
and keeps the stamp of a frame with bytes in flight among them. The queue of requests is the model's (log 1). -/
def Obligations.StepKeepsDuties : Prop :=
  ∀ (s t : State) (p : Pending) (rest : List Pending) (earlier : List Nat), s.pending = p :: rest →
    s.HostDuties earlier → s.StampAmong earlier → step s = .next t →
    t.HostDuties (earlier ++ p.clock.toList) ∧ t.StampAmong (earlier ++ p.clock.toList)

/-- R188, R196: within the host's duties no operation stops the machine: any number of steps ends in a next state, and every
request taken has its response. The queue of requests (log 1), the step with nothing pending (log 3) and the forms of
issue (log 11) are the model's. -/
def Obligations.NoStopWithinDuties : Prop :=
  ∀ (s : State) (k : Nat) (earlier : List Nat), s.HostDuties earlier → s.StampAmong earlier →
    ∃ t : State, RunsTo k s t ∧ t.responses.length = s.responses.length + min k s.pending.length

/-- R36: from construction, with any configuration and any first stamp, serial requests within the host's duties reach
every `(Idle, [], t)` and every `(Collecting, b, t)` whose bytes fit the capacity and hold no `END`. -/
def Obligations.EveryLegalStateIsReached : Prop :=
  ∀ (cfg : Config) (t0 t : Nat) (m : Mode) (b : List Byte), (m = .idle → b = []) → (0x7E : Byte) ∉ b →
    b.length ≤ cfg.capacity →
    ∃ (ps : List Pending) (u : State), State.HostDuties [] { State.construct cfg t0 with pending := ps } ∧
      (∀ p ∈ ps, p.issue = .serial) ∧
      RunsTo ps.length { State.construct cfg t0 with pending := ps } u ∧
      u.mode = m ∧ u.buffer = b ∧ u.lastByteTime = t ∧ u.cfg = cfg ∧ u.pending = []

/-- R24 (c), (d): an engine that started in `Idle` and stands in `Collecting` has consumed a `START` in `Idle` and has been
in `Collecting` ever since; its buffer is the bytes of the FEEDs since, in order, none of them `END`, and its stamp is that
of the most recent FEED. -/
def Obligations.CollectedBytesAreThoseFedSinceStart : Prop :=
  ∀ (s u : State) (ps rest : List Pending), s.mode = .idle → s.pending = ps ++ rest → RunsTo ps.length s u →
    u.mode = .collecting →
    ∃ (pre post : List Pending) (start : Pending) (v : State), ps = pre ++ start :: post ∧
      RunsTo pre.length s v ∧ v.mode = .idle ∧ start.feedByte = some 0x3A ∧
      (∀ (j : Nat) (w : State), j ≤ post.length → RunsTo (pre.length + 1 + j) s w → w.mode = .collecting) ∧
      u.buffer = post.filterMap Pending.feedByte ∧ 0x7E ∉ u.buffer ∧
      ((start :: post).filterMap Pending.feedTime).getLast? = some u.lastByteTime

/-- R240: from `Collecting` with a buffer within its capacity, the FEEDs of bytes other than `END` that fill the buffer and
one more reach `Idle`: at most `C + 1`. -/
def Obligations.NonEndFeedsReachIdle : Prop :=
  ∀ (s : State) (w : List Byte) (t d : Nat) (rest : List Pending), s.mode = .collecting →
    s.len ≤ s.cfg.capacity → (0x7E : Byte) ∉ w → w.length + s.len = s.cfg.capacity + 1 →
    s.pending = feedSeq w t d ++ rest →
    w.length ≤ s.cfg.capacity + 1 ∧
    ∃ u : State, RunsTo w.length s u ∧ u.mode = .idle ∧ u.buffer = [] ∧ u.pending = rest

/-- R163, R226: an engine that consumed `START` and nothing after it stays in `Collecting` whatever TICKs follow. -/
def Obligations.LoneStartNeverTimesOut : Prop :=
  ∀ (s : State) (ts : List Nat), s.mode = .collecting → s.buffer = [] → s.pending = ts.map tickReq →
    RunsTo ts.length s
      { s with pending := [], responses := s.responses ++ List.replicate ts.length (.event .none) }

/-- R167: a stall gives exactly one `Timeout`: the TICK that finds it answers it, and every TICK after it `None`. -/
def Obligations.OneTimeoutPerStall : Prop :=
  ∀ (s : State) (now : Nat) (ts : List Nat), s.mode = .collecting → 0 < s.len →
    s.cfg.timeoutMs < now - s.lastByteTime → s.pending = tickReq now :: ts.map tickReq →
    RunsTo (ts.length + 1) s
      { s with mode := .idle, buffer := [], pending := [],
               responses := s.responses ++ [.event (.error .timeout)] ++
                 List.replicate ts.length (.event .none) }

/-- R140, R227: a byte fed after any silence, before a TICK, is appended and restarts the measurement: a TICK within the
timeout of that byte finds nothing. -/
def Obligations.LateByteRestartsTheMeasurement : Prop :=
  ∀ (s : State) (b : Byte) (t now : Nat) (rest : List Pending), s.mode = .collecting → b ≠ 0x7E →
    s.len < s.cfg.capacity → t ≤ now → now - t ≤ s.cfg.timeoutMs →
    s.pending = feedReq b t :: tickReq now :: rest →
    RunsTo 2 s { s with buffer := s.buffer ++ [b], lastByteTime := t, pending := rest,
                        responses := s.responses ++ [.event .none, .event .none] }

/-- R172, vector X5: RESET abandons the frame in flight; its `END`, still to come, is then noise. -/
def Obligations.ResetAbandonsTheFrame : Prop :=
  ∀ (s : State) (t : Nat) (rest : List Pending), s.pending = resetReq :: feedReq 0x7E t :: rest →
    RunsTo 2 s { s with mode := .idle, buffer := [], lastByteTime := t, pending := rest,
                        responses := s.responses ++ [.nothing, .event .none] }
end

