-- ==== Sys2Proof/Laws/State.lean ====
section
/-! SUPPORT. One lemma per field per update, all by rfl, so that no proof unfolds a record update. -/

namespace Sys2Proof.Machine

@[simp] theorem State.append_cfg (v : Byte) (s : State) : (State.append v s).cfg = s.cfg := rfl
@[simp] theorem State.append_mode (v : Byte) (s : State) : (State.append v s).mode = s.mode := rfl
@[simp] theorem State.append_buffer (v : Byte) (s : State) : (State.append v s).buffer = s.buffer ++ [v] := rfl
@[simp] theorem State.append_lastByteTime (v : Byte) (s : State) : (State.append v s).lastByteTime = s.lastByteTime := rfl
@[simp] theorem State.append_pending (v : Byte) (s : State) : (State.append v s).pending = s.pending := rfl
@[simp] theorem State.append_responses (v : Byte) (s : State) : (State.append v s).responses = s.responses := rfl

@[simp] theorem State.clear_cfg (s : State) : (State.clear s).cfg = s.cfg := rfl
@[simp] theorem State.clear_mode (s : State) : (State.clear s).mode = s.mode := rfl
@[simp] theorem State.clear_buffer (s : State) : (State.clear s).buffer = [] := rfl
@[simp] theorem State.clear_lastByteTime (s : State) : (State.clear s).lastByteTime = s.lastByteTime := rfl
@[simp] theorem State.clear_pending (s : State) : (State.clear s).pending = s.pending := rfl
@[simp] theorem State.clear_responses (s : State) : (State.clear s).responses = s.responses := rfl

@[simp] theorem State.setMode_cfg (m : Mode) (s : State) : (State.setMode m s).cfg = s.cfg := rfl
@[simp] theorem State.setMode_mode (m : Mode) (s : State) : (State.setMode m s).mode = m := rfl
@[simp] theorem State.setMode_buffer (m : Mode) (s : State) : (State.setMode m s).buffer = s.buffer := rfl
@[simp] theorem State.setMode_lastByteTime (m : Mode) (s : State) : (State.setMode m s).lastByteTime = s.lastByteTime := rfl
@[simp] theorem State.setMode_pending (m : Mode) (s : State) : (State.setMode m s).pending = s.pending := rfl
@[simp] theorem State.setMode_responses (m : Mode) (s : State) : (State.setMode m s).responses = s.responses := rfl

@[simp] theorem State.stamp_cfg (now : Nat) (s : State) : (State.stamp now s).cfg = s.cfg := rfl
@[simp] theorem State.stamp_mode (now : Nat) (s : State) : (State.stamp now s).mode = s.mode := rfl
@[simp] theorem State.stamp_buffer (now : Nat) (s : State) : (State.stamp now s).buffer = s.buffer := rfl
@[simp] theorem State.stamp_lastByteTime (now : Nat) (s : State) : (State.stamp now s).lastByteTime = now := rfl
@[simp] theorem State.stamp_pending (now : Nat) (s : State) : (State.stamp now s).pending = s.pending := rfl
@[simp] theorem State.stamp_responses (now : Nat) (s : State) : (State.stamp now s).responses = s.responses := rfl

@[simp] theorem State.respond_cfg (r : Response) (s : State) : (State.respond r s).cfg = s.cfg := rfl
@[simp] theorem State.respond_mode (r : Response) (s : State) : (State.respond r s).mode = s.mode := rfl
@[simp] theorem State.respond_buffer (r : Response) (s : State) : (State.respond r s).buffer = s.buffer := rfl
@[simp] theorem State.respond_lastByteTime (r : Response) (s : State) : (State.respond r s).lastByteTime = s.lastByteTime := rfl
@[simp] theorem State.respond_pending (r : Response) (s : State) : (State.respond r s).pending = s.pending := rfl
@[simp] theorem State.respond_responses (r : Response) (s : State) : (State.respond r s).responses = s.responses ++ [r] := rfl

@[simp] theorem State.toIdle_cfg (s : State) : (State.toIdle s).cfg = s.cfg := rfl
@[simp] theorem State.toIdle_mode (s : State) : (State.toIdle s).mode = .idle := rfl
@[simp] theorem State.toIdle_buffer (s : State) : (State.toIdle s).buffer = [] := rfl
@[simp] theorem State.toIdle_lastByteTime (s : State) : (State.toIdle s).lastByteTime = s.lastByteTime := rfl
@[simp] theorem State.toIdle_pending (s : State) : (State.toIdle s).pending = s.pending := rfl
@[simp] theorem State.toIdle_responses (s : State) : (State.toIdle s).responses = s.responses := rfl

@[simp] theorem State.raise_cfg (k : ErrorKind) (s : State) : (State.raise k s).cfg = s.cfg := rfl
@[simp] theorem State.raise_mode (k : ErrorKind) (s : State) : (State.raise k s).mode = .idle := rfl
@[simp] theorem State.raise_buffer (k : ErrorKind) (s : State) : (State.raise k s).buffer = [] := rfl
@[simp] theorem State.raise_lastByteTime (k : ErrorKind) (s : State) : (State.raise k s).lastByteTime = s.lastByteTime := rfl
@[simp] theorem State.raise_pending (k : ErrorKind) (s : State) : (State.raise k s).pending = s.pending := rfl
@[simp] theorem State.raise_responses (k : ErrorKind) (s : State) : (State.raise k s).responses = s.responses ++ [.event (.error k)] := rfl

@[simp] theorem State.deliver_cfg (r : Received) (s : State) : (State.deliver r s).cfg = s.cfg := rfl
@[simp] theorem State.deliver_mode (r : Received) (s : State) : (State.deliver r s).mode = .idle := rfl
@[simp] theorem State.deliver_buffer (r : Received) (s : State) : (State.deliver r s).buffer = [] := rfl
@[simp] theorem State.deliver_lastByteTime (r : Received) (s : State) : (State.deliver r s).lastByteTime = s.lastByteTime := rfl
@[simp] theorem State.deliver_pending (r : Received) (s : State) : (State.deliver r s).pending = s.pending := rfl
@[simp] theorem State.deliver_responses (r : Received) (s : State) : (State.deliver r s).responses = s.responses ++ [.event (.received r)] := rfl

@[simp] theorem State.dropPending_cfg (s : State) : (State.dropPending s).cfg = s.cfg := rfl
@[simp] theorem State.dropPending_mode (s : State) : (State.dropPending s).mode = s.mode := rfl
@[simp] theorem State.dropPending_buffer (s : State) : (State.dropPending s).buffer = s.buffer := rfl
@[simp] theorem State.dropPending_lastByteTime (s : State) : (State.dropPending s).lastByteTime = s.lastByteTime := rfl
@[simp] theorem State.dropPending_pending (s : State) : (State.dropPending s).pending = s.pending.tail := rfl
@[simp] theorem State.dropPending_responses (s : State) : (State.dropPending s).responses = s.responses := rfl

@[simp] theorem State.issueFirst_cfg (p : Pending) (s : State) : (State.issueFirst p s).cfg = s.cfg := rfl
@[simp] theorem State.issueFirst_mode (p : Pending) (s : State) : (State.issueFirst p s).mode = s.mode := rfl
@[simp] theorem State.issueFirst_buffer (p : Pending) (s : State) : (State.issueFirst p s).buffer = s.buffer := rfl
@[simp] theorem State.issueFirst_lastByteTime (p : Pending) (s : State) : (State.issueFirst p s).lastByteTime = s.lastByteTime := rfl
@[simp] theorem State.issueFirst_pending (p : Pending) (s : State) : (State.issueFirst p s).pending = p :: s.pending := rfl
@[simp] theorem State.issueFirst_responses (p : Pending) (s : State) : (State.issueFirst p s).responses = s.responses := rfl

@[simp] theorem State.construct_cfg (c : Config) (t : Nat) : (State.construct c t).cfg = c := rfl
@[simp] theorem State.construct_mode (c : Config) (t : Nat) : (State.construct c t).mode = .idle := rfl
@[simp] theorem State.construct_buffer (c : Config) (t : Nat) : (State.construct c t).buffer = [] := rfl
@[simp] theorem State.construct_lastByteTime (c : Config) (t : Nat) : (State.construct c t).lastByteTime = t := rfl
@[simp] theorem State.construct_pending (c : Config) (t : Nat) : (State.construct c t).pending = [] := rfl
@[simp] theorem State.construct_responses (c : Config) (t : Nat) : (State.construct c t).responses = [] := rfl

/-- Two states with equal fields are equal. -/
theorem State.ext_fields {s t : State} (hc : s.cfg = t.cfg) (hm : s.mode = t.mode) (hb : s.buffer = t.buffer)
    (hl : s.lastByteTime = t.lastByteTime) (hp : s.pending = t.pending) (hr : s.responses = t.responses) : s = t := by
  cases s
  cases t
  simp_all

end Sys2Proof.Machine
end

