-- ==== Sys2Proof/Laws/Ops.lean ====
section
/-! SUPPORT. What each shared operation does, said once. -/

namespace Sys2Proof.Machine

/-! ## Checksum -/

theorem checksum_foldl (acc : Byte) (s : List Byte) :
    s.foldl (fun a b => a + b) acc = acc + checksum s := by
  unfold checksum
  induction s generalizing acc with
  | nil => simp
  | cons b s ih =>
    rw [List.foldl_cons, List.foldl_cons, ih (acc + b), ih (0 + b)]
    simp [BitVec.add_assoc]

@[simp] theorem checksum_nil : checksum [] = 0 := rfl

@[simp] theorem checksum_cons (b : Byte) (s : List Byte) : checksum (b :: s) = b + checksum s := by
  have h := checksum_foldl (0 + b) s
  simpa [checksum] using h

/-- R111: the natural-number form of the checksum. -/
theorem checksum_eq_ofNat_sum (s : List Byte) : checksum s = BitVec.ofNat 8 (s.map BitVec.toNat).sum := by
  induction s with
  | nil => rfl
  | cons b s ih => simp [ih, BitVec.ofNat_add]

theorem encodeFrame_length (p : List Byte) : (encodeFrame p).length = p.length + 3 := by
  simp [encodeFrame]

/-! ## The frame buffer -/

/-- A read after the append of the byte at `len` gives the byte. -/
theorem memRead_append_self (v : Byte) (s : State) : (s.append v).memRead s.len = some v := by
  simp [State.memRead, State.len]

/-- The append leaves every other index alone. -/
theorem memRead_append_of_ne (v : Byte) (s : State) {j : Nat} (h : j ≠ s.len) :
    (s.append v).memRead j = s.memRead j := by
  simp only [State.memRead, State.append_buffer, State.len] at *
  rcases Nat.lt_or_gt_of_ne h with h | h
  · exact List.getElem?_append_left h
  · rw [List.getElem?_eq_none (by simp; omega), List.getElem?_eq_none (by omega)]

/-- After a clear nothing is readable. -/
theorem memRead_clear (s : State) (j : Nat) : s.clear.memRead j = none := by
  simp [State.memRead]

theorem wf_nil (cfg : Config) : Memory.wf cfg [] = true := by simp [Memory.wf]

theorem wf_clear (s : State) : Memory.wf s.clear.cfg s.clear.buffer = true := wf_nil _

@[simp] theorem full_eq_false {s : State} : s.full = false ↔ s.buffer.length < s.cfg.capacity := by
  simp only [State.full, Bool.not_eq_false', decide_eq_true_eq]
  exact Iff.rfl

@[simp] theorem full_eq_true {s : State} : s.full = true ↔ s.cfg.capacity ≤ s.buffer.length := by
  simp only [State.full, Bool.not_eq_true', decide_eq_false_iff_not, Nat.not_lt]
  exact Iff.rfl

/-- An append that the `len` test allows keeps the buffer's form. -/
theorem wf_append {s : State} (v : Byte) (h : s.full = false) :
    Memory.wf (s.append v).cfg (s.append v).buffer = true := by
  have := full_eq_false.1 h
  simp [Memory.wf]
  omega

/-! ## The conditions of TICK -/

@[simp] theorem inFlight_eq_true {s : State} : s.inFlight = true ↔ s.mode = .collecting ∧ s.buffer ≠ [] := by
  simp [State.inFlight, State.len, List.length_pos_iff]

@[simp] theorem clockBehind_eq_true {s : State} {now : Nat} : s.clockBehind now = true ↔ now < s.lastByteTime := by
  simp [State.clockBehind]

@[simp] theorem stalled_eq_true {s : State} {now : Nat} :
    s.stalled now = true ↔ s.cfg.timeoutMs < now - s.lastByteTime := by
  simp [State.stalled]

/-! ## The fields of a body -/

theorem bodyData_snoc (data : List Byte) (c : Byte) : bodyData (data ++ [c]) = data := by
  simp [bodyData]

theorem receivedChecksum_snoc (data : List Byte) (c : Byte) : receivedChecksum (data ++ [c]) = some c := by
  simp [receivedChecksum]

/-- R131: what the formula reduces to. -/
theorem lengthValidation_eq (body : List Byte) : lengthValidation body = body.length + lenBias := by
  simp only [lengthValidation, byteCount, startIndex, byteCountBias, lenBias]
  omega

/-- R130: both bytes exist and the length is their big-endian value. -/
theorem declaredLength_eq {data : List Byte} (h : 4 ≤ data.length) :
    declaredLength data = some (256 * (data.getD 2 0).toNat + (data.getD 3 0).toNat) := by
  match data, h with
  | _ :: _ :: hi :: lo :: _, _ =>
    have hlo : lo.toNat < 2 ^ 8 := lo.isLt
    have : hi.toNat <<< 8 ||| lo.toNat = 256 * hi.toNat + lo.toNat := by
      rw [Nat.shiftLeft_eq, Nat.mul_comm, ← Nat.two_pow_add_eq_or_of_lt hlo]
    simp [declaredLength, lenHiOff, lenLoOff, this]

theorem checksumValid_snoc (data : List Byte) (c : Byte) :
    checksumValid (data ++ [c]) = true ↔ c = checksum data := by
  simp [checksumValid, bodyData_snoc, receivedChecksum_snoc]

theorem lengthValid_snoc {data : List Byte} (c : Byte) (h : 4 ≤ data.length) :
    lengthValid (data ++ [c]) = true ↔
      256 * (data.getD 2 0).toNat + (data.getD 3 0).toNat = data.length + 3 := by
  simp only [lengthValid, bodyData_snoc, declaredLength_eq h, lengthValidation_eq, decide_eq_true_eq, lenBias,
    List.length_append, List.length_cons, List.length_nil]
  omega

/-- R133: the extraction, with the sub-command present exactly from six bytes on. -/
theorem received_eq {data : List Byte} (h : 4 ≤ data.length) :
    received data = some { command := data.getD 1 0,
                           subcommand := if 6 ≤ data.length then some (data.getD 5 0) else none, data := data } := by
  match data, h with
  | a :: c :: hi :: lo :: tl, _ =>
    match tl with
    | [] => simp [received, cmdOff, subOff]
    | [_] => simp [received, cmdOff, subOff]
    | _ :: _ :: _ => simp [received, cmdOff, subOff]

/-- A sequence that is not empty has a last byte. -/
theorem snoc_of_length_pos {l : List Byte} (h : 0 < l.length) : ∃ data c, l = data ++ [c] := by
  rcases List.eq_nil_or_concat l with rfl | ⟨data, c, rfl⟩
  · simp at h
  · exact ⟨data, c, by simp⟩

end Sys2Proof.Machine
end

