-- ==== Sys2Proof/Laws/Decode.lean ====
section
/-! SUPPORT. Small lemmas of the codes: the mode bit, the key's fields, the error kinds. -/

namespace Sys2Proof

open Machine (Mode ErrorKind)

@[simp] theorem ofCode_code (m : Mode) : Mode.ofCode m.code = m := by cases m <;> rfl

@[simp] theorem code_ofCode (b : Bool) : (Mode.ofCode b).code = b := by cases b <;> rfl

/-- The mode of a key is the mode it was built from. -/
@[simp] theorem keyMode_feedKey (m : Mode) (b : Byte) : keyMode (feedKey m b) = m := by
  have h : (feedKey m b).getLsbD 8 = m.code := by
    simp only [feedKey, BitVec.getLsbD_cast, BitVec.getLsbD_append]
    simp
  rw [keyMode, h, ofCode_code]

/-- The byte of a key is the byte it was built from. -/
@[simp] theorem keyByte_feedKey (m : Mode) (b : Byte) : keyByte (feedKey m b) = b := by
  apply BitVec.eq_of_getLsbD_eq
  intro i hi
  simp only [keyByte, feedKey, BitVec.getLsbD_extractLsb', BitVec.getLsbD_cast, BitVec.getLsbD_append, hi]
  simp [hi]

/-- A key is built from its mode and its byte: no bit is dropped. -/
@[simp] theorem feedKey_of_fields (k : FeedKey) : feedKey (keyMode k) (keyByte k) = k := by
  apply BitVec.eq_of_getLsbD_eq
  intro i hi
  simp only [feedKey, keyMode, keyByte, code_ofCode, BitVec.getLsbD_cast, BitVec.getLsbD_append]
  by_cases h : i < 8
  · simp only [h, decide_true, if_true, BitVec.getLsbD_extractLsb', Nat.zero_add, Bool.true_and]
  · obtain rfl : i = 8 := by omega
    simp

@[simp] theorem errorKind_ofCode_code (k : ErrorKind) : ErrorKind.ofCode k.code = some k := by
  cases k <;> rfl

end Sys2Proof
end

