-- ==== Sys2Proof/Laws/Feed.lean ====
section
/-! SUPPORT. Frame validation, the class FEED selects, and the form every row of the FEED decode has. -/

namespace Sys2Proof.Machine

/-! ## Validation -/

theorem validate_short {body : List Byte} (h : body.length < 5) : validate body = .error .frameTooShort := by
  simp [validate, minBody, h]

/-- R132, R133: what validation answers for a body of at least five bytes. -/
theorem validate_snoc {data : List Byte} (c : Byte) (h : 4 ≤ data.length) :
    validate (data ++ [c]) =
      if c ≠ checksum data then .error .checksumMismatch
      else if 256 * (data.getD 2 0).toNat + (data.getD 3 0).toNat ≠ data.length + 3 then .error .lengthMismatch
      else .ok { command := data.getD 1 0,
                 subcommand := if 6 ≤ data.length then some (data.getD 5 0) else none, data := data } := by
  have hlen : ¬ (data ++ [c]).length < minBody := by simp [minBody]; omega
  have hc := checksumValid_snoc data c
  have hl := lengthValid_snoc c h
  rw [validate, if_neg hlen, bodyData_snoc, received_eq h]
  by_cases h1 : c = checksum data
  · by_cases h2 : 256 * (data.getD 2 0).toNat + (data.getD 3 0).toNat = data.length + 3
    · rw [hc.2 h1, hl.2 h2, if_neg (not_not.2 h1), if_neg (not_not.2 h2)]
      rfl
    · rw [hc.2 h1, Bool.eq_false_iff.2 (mt hl.1 h2), if_neg (not_not.2 h1), if_pos h2]
      rfl
  · rw [Bool.eq_false_iff.2 (mt hc.1 h1), if_pos h1]
    rfl

/-- A body that validates is its delivered data and that data's checksum (R128, R133). -/
theorem validate_ok {body : List Byte} {r : Received} (h : validate body = .ok r) :
    ∃ data, body = data ++ [checksum data] ∧ 4 ≤ data.length ∧
      256 * (data.getD 2 0).toNat + (data.getD 3 0).toNat = data.length + 3 ∧
      r = { command := data.getD 1 0,
            subcommand := if 6 ≤ data.length then some (data.getD 5 0) else none, data := data } := by
  by_cases hl : body.length < 5
  · simp [validate_short hl] at h
  · obtain ⟨data, c, rfl⟩ := snoc_of_length_pos (l := body) (by omega)
    have h4 : 4 ≤ data.length := by simp at hl; omega
    rw [validate_snoc c h4] at h
    split at h
    · cases h
    · split at h
      · cases h
      · rename_i h1 h2
        simp only [ne_eq, not_not] at h1 h2
        cases h
        exact ⟨data, by rw [h1], h4, h2, rfl⟩

/-- R181: the only kinds validation raises. -/
theorem validate_error {body : List Byte} {k : ErrorKind} (h : validate body = .error k) :
    k = .frameTooShort ∨ k = .checksumMismatch ∨ k = .lengthMismatch := by
  unfold validate at h
  split at h
  · cases h; exact .inl rfl
  split at h
  · cases h; exact .inr (.inl rfl)
  split at h
  · cases h; exact .inr (.inr rfl)
  split at h
  · cases h
  · cases h; exact .inl rfl

/-! ## The class of a FEED -/

@[simp] theorem feedClass_start {m : Mode} {b : Byte} {f : Bool} :
    feedClass m b f = .start ↔ m = .idle ∧ b = startByte := by
  cases m <;> cases f <;> simp only [feedClass] <;> split <;> simp_all

@[simp] theorem feedClass_noise {m : Mode} {b : Byte} {f : Bool} :
    feedClass m b f = .noise ↔ m = .idle ∧ b ≠ startByte := by
  cases m <;> cases f <;> simp only [feedClass] <;> split <;> simp_all

@[simp] theorem feedClass_frameEnd {m : Mode} {b : Byte} {f : Bool} :
    feedClass m b f = .frameEnd ↔ m = .collecting ∧ b = endByte := by
  cases m <;> cases f <;> simp only [feedClass] <;> split <;> simp_all

@[simp] theorem feedClass_append {m : Mode} {b : Byte} {f : Bool} :
    feedClass m b f = .append ↔ m = .collecting ∧ b ≠ endByte ∧ f = false := by
  cases m <;> cases f <;> simp only [feedClass] <;> split <;> simp_all

@[simp] theorem feedClass_overflow {m : Mode} {b : Byte} {f : Bool} :
    feedClass m b f = .overflow ↔ m = .collecting ∧ b ≠ endByte ∧ f = true := by
  cases m <;> cases f <;> simp only [feedClass] <;> split <;> simp_all

/-! ## Rows -/

theorem runRow_selected {cls : FeedClass} {byte : Byte} {now : Nat} {f : State → State} {s : State}
    (h : feedClass s.mode byte s.full = cls) : runRow cls byte now f s = .next (f (s.stamp now)) := if_pos h

theorem runRow_unselected {cls : FeedClass} {byte : Byte} {now : Nat} {f : State → State} {s : State}
    (h : feedClass s.mode byte s.full ≠ cls) : runRow cls byte now f s = .refused .feedRowNotSelected := if_neg h

/-- A row that answers a next state was selected, and the state is its effect after the stamp. -/
theorem runRow_next {cls : FeedClass} {byte : Byte} {now : Nat} {f : State → State} {s t : State}
    (h : runRow cls byte now f s = .next t) : feedClass s.mode byte s.full = cls ∧ t = f (s.stamp now) := by
  unfold runRow at h
  split at h
  · cases h
    exact ⟨‹_›, rfl⟩
  · cases h

end Sys2Proof.Machine
end

