-- ==== Sys2Proof/Laws/Exec.lean ====
section
/-! SUPPORT. Everything an operation can do to the state, said once: `exec` answers a next state only as `Effect` says. -/

namespace Sys2Proof.Machine

/-- The effects of an operation, one constructor per path that ends in a next state. -/
inductive Effect (s : State) : Instr → State → Prop where
  | csum (span : List Byte) : Effect s (.csum span) (s.respond (.byte (checksum span)))
  | encode (p : List Byte) : Effect s (.encode p) (s.respond (.bytes (encodeFrame p)))
  | reset : Effect s .reset (s.toIdle.respond .nothing)
  | tickNothing (now : Nat)
      (h : s.mode = .collecting → s.buffer ≠ [] →
        s.lastByteTime ≤ now ∧ now - s.lastByteTime ≤ s.cfg.timeoutMs) :
      Effect s (.tick now) (s.respond (.event .none))
  | tickTimeout (now : Nat) (hm : s.mode = .collecting) (hb : s.buffer ≠ []) (hle : s.lastByteTime ≤ now)
      (hgt : s.cfg.timeoutMs < now - s.lastByteTime) : Effect s (.tick now) (s.raise .timeout)
  | opened {i : Instr} {now : Nat} (hb : fedByte i = some startByte) (hn : fedTime i = some now)
      (hm : s.mode = .idle) :
      Effect s i (((s.stamp now).setMode .collecting).clear.respond (.event .none))
  | noise {i : Instr} {b : Byte} {now : Nat} (hb : fedByte i = some b) (hn : fedTime i = some now)
      (hm : s.mode = .idle) (hne : b ≠ startByte) : Effect s i ((s.stamp now).respond (.event .none))
  | delivered {i : Instr} {now : Nat} {r : Received} (hb : fedByte i = some endByte)
      (hn : fedTime i = some now) (hm : s.mode = .collecting) (hv : validate s.buffer = .ok r) :
      Effect s i ((s.stamp now).deliver r)
  | rejected {i : Instr} {now : Nat} {k : ErrorKind} (hb : fedByte i = some endByte)
      (hn : fedTime i = some now) (hm : s.mode = .collecting) (hv : validate s.buffer = .error k) :
      Effect s i ((s.stamp now).raise k)
  | appended {i : Instr} {b : Byte} {now : Nat} (hb : fedByte i = some b) (hn : fedTime i = some now)
      (hm : s.mode = .collecting) (hne : b ≠ endByte) (hroom : s.buffer.length < s.cfg.capacity) :
      Effect s i (((s.stamp now).append b).respond (.event .none))
  | overflowed {i : Instr} {b : Byte} {now : Nat} (hb : fedByte i = some b) (hn : fedTime i = some now)
      (hm : s.mode = .collecting) (hne : b ≠ endByte) (hfull : s.cfg.capacity ≤ s.buffer.length) :
      Effect s i ((s.stamp now).raise .bufferOverflow)

/-- No effect touches the configuration or the requests still pending. -/
theorem Effect.frame {s t : State} {i : Instr} (h : Effect s i t) : t.cfg = s.cfg ∧ t.pending = s.pending := by
  cases h <;> exact ⟨rfl, rfl⟩

/-- Every effect keeps the buffer within its capacity (R24 (a), R50): the memory's form is kept by every operation. -/
theorem Effect.keeps_wf {s t : State} {i : Instr} (h : Effect s i t) (hs : Memory.wf s.cfg s.buffer = true) :
    Memory.wf t.cfg t.buffer = true := by
  cases h with
  | appended hb hn hm hne hroom => exact wf_append (s := s) _ (full_eq_false.2 hroom)
  | _ => first | exact hs | exact wf_nil _

/-- The effect of the row FEED.END, for any operation that is fed `END`. -/
theorem Effect.ofEnd {s : State} {i : Instr} {now : Nat} (hb : fedByte i = some endByte)
    (hn : fedTime i = some now) (hm : s.mode = .collecting) :
    Effect s i (match validate (s.stamp now).buffer with
      | .ok r => (s.stamp now).deliver r
      | .error k => (s.stamp now).raise k) := by
  rw [State.stamp_buffer]
  cases hv : validate s.buffer with
  | ok r => exact .delivered hb hn hm hv
  | error k => exact .rejected hb hn hm hv

theorem execFeedStart_effect {now : Nat} {s t : State} (h : execFeedStart now s = .next t)
    {i : Instr} (hb : fedByte i = some startByte) (hn : fedTime i = some now) : Effect s i t := by
  obtain ⟨hc, rfl⟩ := runRow_next h
  exact .opened hb hn (feedClass_start.1 hc).1

theorem execFeedNoise_effect {b : Byte} {now : Nat} {s t : State} (h : execFeedNoise b now s = .next t)
    {i : Instr} (hb : fedByte i = some b) (hn : fedTime i = some now) : Effect s i t := by
  obtain ⟨hc, rfl⟩ := runRow_next h
  exact .noise hb hn (feedClass_noise.1 hc).1 (feedClass_noise.1 hc).2

theorem execFeedEnd_effect {now : Nat} {s t : State} (h : execFeedEnd now s = .next t)
    {i : Instr} (hb : fedByte i = some endByte) (hn : fedTime i = some now) : Effect s i t := by
  obtain ⟨hc, rfl⟩ := runRow_next h
  exact .ofEnd hb hn (feedClass_frameEnd.1 hc).1

theorem execFeedAppend_effect {b : Byte} {now : Nat} {s t : State} (h : execFeedAppend b now s = .next t)
    {i : Instr} (hb : fedByte i = some b) (hn : fedTime i = some now) : Effect s i t := by
  obtain ⟨hc, rfl⟩ := runRow_next h
  obtain ⟨hm, hne, hf⟩ := feedClass_append.1 hc
  exact .appended hb hn hm hne (full_eq_false.1 hf)

theorem execFeedOverflow_effect {b : Byte} {now : Nat} {s t : State} (h : execFeedOverflow b now s = .next t)
    {i : Instr} (hb : fedByte i = some b) (hn : fedTime i = some now) : Effect s i t := by
  obtain ⟨hc, rfl⟩ := runRow_next h
  obtain ⟨hm, hne, hf⟩ := feedClass_overflow.1 hc
  exact .overflowed hb hn hm hne (full_eq_true.1 hf)

/-- FEED is the row its decode selects. -/
theorem execFeed_cases (b : Byte) (now : Nat) (s : State) :
    (s.mode = .idle ∧ b = startByte ∧ execFeed b now s = execFeedStart now s) ∨
    (s.mode = .idle ∧ b ≠ startByte ∧ execFeed b now s = execFeedNoise b now s) ∨
    (s.mode = .collecting ∧ b = endByte ∧ execFeed b now s = execFeedEnd now s) ∨
    (s.mode = .collecting ∧ b ≠ endByte ∧ s.full = false ∧ execFeed b now s = execFeedAppend b now s) ∨
    (s.mode = .collecting ∧ b ≠ endByte ∧ s.full = true ∧ execFeed b now s = execFeedOverflow b now s) := by
  unfold execFeed
  cases hc : feedClass s.mode b s.full with
  | start => exact .inl ⟨(feedClass_start.1 hc).1, (feedClass_start.1 hc).2, rfl⟩
  | noise => exact .inr (.inl ⟨(feedClass_noise.1 hc).1, (feedClass_noise.1 hc).2, rfl⟩)
  | frameEnd => exact .inr (.inr (.inl ⟨(feedClass_frameEnd.1 hc).1, (feedClass_frameEnd.1 hc).2, rfl⟩))
  | append =>
    obtain ⟨hm, hne, hf⟩ := feedClass_append.1 hc
    exact .inr (.inr (.inr (.inl ⟨hm, hne, hf, rfl⟩)))
  | overflow =>
    obtain ⟨hm, hne, hf⟩ := feedClass_overflow.1 hc
    exact .inr (.inr (.inr (.inr ⟨hm, hne, hf, rfl⟩)))

theorem execFeed_effect {b : Byte} {now : Nat} {s t : State} (h : execFeed b now s = .next t) :
    Effect s (.feed b now) t := by
  rcases execFeed_cases b now s with ⟨-, rfl, he⟩ | ⟨-, -, he⟩ | ⟨-, rfl, he⟩ | ⟨-, -, -, he⟩ | ⟨-, -, -, he⟩ <;>
    rw [he] at h
  · exact execFeedStart_effect h rfl rfl
  · exact execFeedNoise_effect h rfl rfl
  · exact execFeedEnd_effect h rfl rfl
  · exact execFeedAppend_effect h rfl rfl
  · exact execFeedOverflow_effect h rfl rfl

theorem execTick_effect {now : Nat} {s t : State} (h : execTick now s = .next t) : Effect s (.tick now) t := by
  unfold execTick at h
  by_cases hf : s.inFlight = true
  · obtain ⟨hm, hb⟩ := inFlight_eq_true.1 hf
    rw [if_pos hf] at h
    by_cases hc : s.clockBehind now = true
    · rw [if_pos hc] at h
      cases h
    · rw [if_neg hc] at h
      have hle : s.lastByteTime ≤ now := Nat.le_of_not_lt fun hlt => hc (clockBehind_eq_true.2 hlt)
      by_cases hs : s.stalled now = true
      · rw [if_pos hs] at h
        cases h
        exact .tickTimeout now hm hb hle (stalled_eq_true.1 hs)
      · rw [if_neg hs] at h
        cases h
        exact .tickNothing now fun _ _ => ⟨hle, Nat.le_of_not_lt fun hlt => hs (stalled_eq_true.2 hlt)⟩
  · rw [if_neg hf] at h
    cases h
    exact .tickNothing now fun hm hb => absurd (inFlight_eq_true.2 ⟨hm, hb⟩) hf

/-- Everything `exec` can do when it answers a next state. -/
theorem exec_effect {i : Instr} {s t : State} (h : exec i s = .next t) : Effect s i t := by
  cases i with
  | csum span => cases h; exact .csum span
  | feed b now => exact execFeed_effect h
  | encode p => cases h; exact .encode p
  | tick now => exact execTick_effect h
  | reset => cases h; exact .reset
  | feedStart now => exact execFeedStart_effect h rfl rfl
  | feedNoise b now => exact execFeedNoise_effect h rfl rfl
  | feedEnd now => exact execFeedEnd_effect h rfl rfl
  | feedAppend b now => exact execFeedAppend_effect h rfl rfl
  | feedOverflow b now => exact execFeedOverflow_effect h rfl rfl

end Sys2Proof.Machine
end

