-- ==== Sys2Proof/Laws/PerInstr.lean ====
section
/-! SUPPORT. A fact about every operation as syntax, one lemma per constructor: the two formats of opcode_table.json. -/

namespace Sys2Proof.Laws.RequestOrRow

/-- R88, R97: an operation is a request with one of the five codes, or a row of the FEED decode. -/
def Statement (i : Instr) : Prop :=
  (∃ r : Request, encode i = .request r ∧ r.op.toNat < 5) ∨ (∃ cls byte now, i = rowInstr cls byte now)

theorem csum (span : List Byte) : Statement (.csum span) := .inl ⟨_, rfl, show opCsum.toNat < 5 by decide⟩
theorem feed (byte : Byte) (now : Nat) : Statement (.feed byte now) := .inl ⟨_, rfl, show opFeed.toNat < 5 by decide⟩
theorem encode (payload : List Byte) : Statement (.encode payload) := .inl ⟨_, rfl, show opEncode.toNat < 5 by decide⟩
theorem tick (now : Nat) : Statement (.tick now) := .inl ⟨_, rfl, show opTick.toNat < 5 by decide⟩
theorem reset : Statement .reset := .inl ⟨_, rfl, show opReset.toNat < 5 by decide⟩
theorem feedStart (now : Nat) : Statement (.feedStart now) := .inr ⟨.start, 0, now, rfl⟩
theorem feedNoise (byte : Byte) (now : Nat) : Statement (.feedNoise byte now) := .inr ⟨.noise, byte, now, rfl⟩
theorem feedEnd (now : Nat) : Statement (.feedEnd now) := .inr ⟨.frameEnd, 0, now, rfl⟩
theorem feedAppend (byte : Byte) (now : Nat) : Statement (.feedAppend byte now) := .inr ⟨.append, byte, now, rfl⟩
theorem feedOverflow (byte : Byte) (now : Nat) : Statement (.feedOverflow byte now) :=
  .inr ⟨.overflow, byte, now, rfl⟩

end Sys2Proof.Laws.RequestOrRow
end

