-- ==== Sys2Proof/Laws/Step.lean ====
section
/-! SUPPORT. What a step does, where a table word goes, and runs: composition and the runs of a frame's bytes. -/

namespace Sys2Proof.Machine

/-! ## One step -/

theorem step_nil {s : State} (h : s.pending = []) : step s = .next s := by
  simp [step, h]

/-- A serial request runs as `exec` of its operation. -/
theorem step_serial {s : State} {r : Request} {rest : List Pending} {i : Instr}
    (h : s.pending = { request := r } :: rest) (hd : decodeRequest r = .instr i) :
    step s = exec i { s with pending := rest } := by
  simp [step, h, hd, issueRefusal, State.dropPending]

/-- A step that answers a next state changes nothing, or has the effect of the operation it took. -/
theorem step_effect {s t : State} (h : step s = .next t) :
    (s.pending = [] ∧ t = s) ∨
    ∃ p rest i, s.pending = p :: rest ∧ decodeRequest p.request = .instr i ∧ issueRefusal p.issue i = none ∧
      Effect { s with pending := rest } i t := by
  unfold step at h
  split at h
  · cases h
    exact .inl ⟨‹_›, rfl⟩
  · rename_i p rest hp
    split at h
    · cases h
    · rename_i i hd
      split at h
      · cases h
      · rename_i hi
        have := exec_effect h
        rw [State.dropPending, hp] at this
        exact .inr ⟨p, rest, i, hp, hd, hi, this⟩

@[simp] theorem decode_feedReq (b : Byte) (t : Nat) : decodeRequest (feedReq b t).request = .instr (.feed b t) := rfl
@[simp] theorem decode_tickReq (t : Nat) : decodeRequest (tickReq t).request = .instr (.tick t) := rfl
@[simp] theorem decode_resetReq : decodeRequest resetReq.request = .instr .reset := rfl
@[simp] theorem decode_csumReq (x : List Byte) : decodeRequest (csumReq x).request = .instr (.csum x) := rfl
@[simp] theorem decode_encodeReq (p : List Byte) : decodeRequest (encodeReq p).request = .instr (.encode p) := rfl

theorem step_feedReq {s : State} {b : Byte} {t : Nat} {rest : List Pending} (h : s.pending = feedReq b t :: rest) :
    step s = execFeed b t { s with pending := rest } := step_serial h rfl

theorem step_tickReq {s : State} {t : Nat} {rest : List Pending} (h : s.pending = tickReq t :: rest) :
    step s = execTick t { s with pending := rest } := step_serial h rfl

/-! ## Table words -/

/-- A request word placed by `withFetchWord` is what the next step runs. -/
theorem step_withFetchWord_request {s : State} {nbits w : Nat} {i : Instr} (hw : nbits ≤ 8)
    (h : decodeTableWord nbits w = some i) : step (s.withFetchWord nbits w) = exec i s := by
  have hr : isRequestWidth nbits = true := by simpa [isRequestWidth] using hw
  have hd : decodeRequest (tableRequest w) = .instr i := by
    simp only [decodeTableWord, tableEncoded, hr, if_true, decode] at h
    split at h
    · rename_i j hj
      cases h
      exact hj
    · cases h
  have hp : (s.withFetchWord nbits w).pending = { request := tableRequest w } :: s.pending := by
    simp [State.withFetchWord, placeTableWord, hr]
  rw [step_serial hp hd]
  simp [State.withFetchWord, placeTableWord, hr, State.issueFirst]

/-- A key word placed by `withFetchWord` is the FEED of its byte in its mode. -/
theorem step_withFetchWord_key {s : State} {nbits w : Nat} (hw : 8 < nbits) :
    step (s.withFetchWord nbits w) =
      exec (.feed (keyByte (tableKey w)) 0) { s with mode := keyMode (tableKey w) } := by
  have hr : isRequestWidth nbits = false := by simpa [isRequestWidth] using hw
  have hp : (s.withFetchWord nbits w).pending = { request := keyRequest (tableKey w) } :: s.pending := by
    simp [State.withFetchWord, placeTableWord, hr]
  rw [step_serial hp rfl]
  simp [State.withFetchWord, placeTableWord, hr, State.issueFirst, State.setMode, keyRequest]

/-! ## Runs -/

theorem RunsTo.refl (s : State) : RunsTo 0 s s := rfl

theorem RunsTo.cons {k : Nat} {s u t : State} (h : step s = .next u) (hr : RunsTo k u t) : RunsTo (k + 1) s t := by
  have : Sys2Proof.core.step s = .next u := h
  simpa [RunsTo, Host.Core.run, this] using hr

theorem RunsTo.one {s t : State} (h : step s = .next t) : RunsTo 1 s t := .cons h (.refl t)

theorem RunsTo.trans {j k : Nat} {s u t : State} (h1 : RunsTo j s u) (h2 : RunsTo k u t) : RunsTo (j + k) s t := by
  induction j generalizing s with
  | zero =>
    cases h1
    simpa using h2
  | succ j ih =>
    rw [Nat.succ_add]
    cases hs : Sys2Proof.core.step s with
    | next v =>
      have hv : RunsTo j v u := by simpa [RunsTo, Host.Core.run, hs] using h1
      exact .cons hs (ih hv)
    | fault r => simp [RunsTo, Host.Core.run, hs] at h1
    | refused r => simp [RunsTo, Host.Core.run, hs] at h1

/-- A property every step keeps holds at the end of a run. -/
theorem RunsTo.keeps {P : State → Prop} (hstep : ∀ s t, P s → step s = .next t → P t) {k : Nat} {s t : State}
    (h : RunsTo k s t) (hs : P s) : P t := by
  induction k generalizing s with
  | zero =>
    cases h
    exact hs
  | succ k ih =>
    cases hc : Sys2Proof.core.step s with
    | next v =>
      have hv : RunsTo k v t := by simpa [RunsTo, Host.Core.run, hc] using h
      exact ih hv (hstep s v hs hc)
    | fault r => simp [RunsTo, Host.Core.run, hc] at h
    | refused r => simp [RunsTo, Host.Core.run, hc] at h

/-! ## The bytes of a frame -/

@[simp] theorem feedSeq_length (w : List Byte) (t d : Nat) : (feedSeq w t d).length = w.length := by
  induction w generalizing t with
  | nil => rfl
  | cons b w ih => simp [feedSeq, ih]

theorem feedSeq_append (v w : List Byte) (t d : Nat) :
    feedSeq (v ++ w) t d = feedSeq v t d ++ feedSeq w (t + v.length * d) d := by
  induction v generalizing t with
  | nil => simp [feedSeq]
  | cons b v ih => simp [feedSeq, ih, Nat.add_mul, Nat.add_assoc, Nat.add_comm d]

theorem frameBytes_eq (p : List Byte) : frameBytes p = encodeFrame p := by
  simp [frameBytes, encodeFrame]

/-- Bytes other than `START` fed in `Idle` leave the parser as it is. -/
theorem run_noise (w : List Byte) : ∀ (s : State) (t d : Nat) (rest : List Pending), s.mode = .idle →
    startByte ∉ w → s.pending = feedSeq w t d ++ rest →
    ∃ u, RunsTo w.length s { s with lastByteTime := u, pending := rest,
                                    responses := s.responses ++ List.replicate w.length (.event .none) } := by
  induction w with
  | nil =>
    intro s t d rest _ _ hp
    refine ⟨s.lastByteTime, ?_⟩
    have : s.pending = rest := by simpa [feedSeq] using hp
    simp [← this, RunsTo.refl]
  | cons b w ih =>
    intro s t d rest hm hw hp
    obtain ⟨hb, hw⟩ := not_or.1 (mt List.mem_cons.2 hw)
    have hstep : step s = .next { s with lastByteTime := t, pending := feedSeq w (t + d) d ++ rest,
                                         responses := s.responses ++ [.event .none] } := by
      rw [step_feedReq (by simpa [feedSeq] using hp)]
      rcases execFeed_cases b t { s with pending := feedSeq w (t + d) d ++ rest } with
        ⟨-, h, -⟩ | ⟨-, -, he⟩ | ⟨h, -⟩ | ⟨h, -⟩ | ⟨h, -⟩
      · exact absurd h.symm hb
      · exact he.trans (runRow_selected (feedClass_noise.2 ⟨hm, fun h => hb h.symm⟩))
      all_goals simp [hm] at h
    obtain ⟨u, hr⟩ := ih { s with lastByteTime := t, pending := feedSeq w (t + d) d ++ rest,
                                  responses := s.responses ++ [.event .none] } (t + d) d rest hm hw rfl
    exact ⟨u, by simpa [List.replicate_succ] using RunsTo.cons hstep hr⟩

/-- Bytes other than `END` fed in `Collecting` are appended while there is room. -/
theorem run_collect (w : List Byte) : ∀ (s : State) (t d : Nat) (rest : List Pending), s.mode = .collecting →
    endByte ∉ w → s.buffer.length + w.length ≤ s.cfg.capacity → s.pending = feedSeq w t d ++ rest →
    RunsTo w.length s { s with
      buffer := s.buffer ++ w
      lastByteTime := if w = [] then s.lastByteTime else t + (w.length - 1) * d
      pending := rest
      responses := s.responses ++ List.replicate w.length (.event .none) } := by
  induction w with
  | nil =>
    intro s t d rest _ _ _ hp
    have : s.pending = rest := by simpa [feedSeq] using hp
    simp [← this, RunsTo.refl]
  | cons b w ih =>
    intro s t d rest hm hw hroom hp
    obtain ⟨hb, hw⟩ := not_or.1 (mt List.mem_cons.2 hw)
    have hlt : s.buffer.length < s.cfg.capacity := by simp at hroom; omega
    have hstep : step s = .next { s with buffer := s.buffer ++ [b], lastByteTime := t,
                                         pending := feedSeq w (t + d) d ++ rest,
                                         responses := s.responses ++ [.event .none] } := by
      rw [step_feedReq (by simpa [feedSeq] using hp)]
      rcases execFeed_cases b t { s with pending := feedSeq w (t + d) d ++ rest } with
        ⟨h, -⟩ | ⟨h, -⟩ | ⟨-, h, -⟩ | ⟨-, -, hf, he⟩ | ⟨-, -, h, -⟩
      · simp [hm] at h
      · simp [hm] at h
      · exact absurd h.symm hb
      · exact he.trans (runRow_selected (feedClass_append.2 ⟨hm, fun h => hb h.symm, hf⟩))
      · have := full_eq_true.1 h
        simp at this
        omega
    have hr := ih { s with buffer := s.buffer ++ [b], lastByteTime := t, pending := feedSeq w (t + d) d ++ rest,
                           responses := s.responses ++ [.event .none] } (t + d) d rest hm hw
      (by simp at hroom ⊢; omega) rfl
    have := RunsTo.cons hstep hr
    have ht : (if w = [] then t else t + d + (w.length - 1) * d) = t + w.length * d := by
      cases w with
      | nil => simp
      | cons c w => simp [Nat.add_mul, Nat.add_assoc, Nat.add_comm d]
    simpa [ht, List.replicate_succ] using this

/-- `START` fed in `Idle` opens a frame. -/
theorem run_start {s : State} {t : Nat} {rest : List Pending} (hm : s.mode = .idle)
    (hp : s.pending = feedReq startByte t :: rest) :
    RunsTo 1 s { s with mode := .collecting, buffer := [], lastByteTime := t, pending := rest,
                        responses := s.responses ++ [.event .none] } := by
  refine .one ?_
  rw [step_feedReq hp, execFeed, feedClass_start.2 ⟨hm, rfl⟩]
  exact runRow_selected (feedClass_start.2 ⟨hm, rfl⟩)

/-- `END` fed in `Collecting` closes the frame with the validation's outcome. -/
theorem run_end {s : State} {t : Nat} {rest : List Pending} (hm : s.mode = .collecting)
    (hp : s.pending = feedReq endByte t :: rest) :
    RunsTo 1 s { s with mode := .idle, buffer := [], lastByteTime := t, pending := rest,
                        responses := s.responses ++ [.event (match validate s.buffer with
                          | .ok r => .received r
                          | .error k => .error k)] } := by
  refine .one ?_
  rw [step_feedReq hp, execFeed, feedClass_frameEnd.2 ⟨hm, rfl⟩]
  refine (show _ = execFeedEnd t { s with pending := rest } from rfl).trans ?_
  rw [execFeedEnd, runRow_selected (s := { s with pending := rest }) (feedClass_frameEnd.2 ⟨hm, rfl⟩)]
  simp only [State.stamp_buffer]
  cases validate s.buffer <;> rfl

/-- A whole frame fed in `Idle`: `START`, a body without `END` that fits the buffer, `END`. -/
theorem run_frame {s : State} {body : List Byte} {t d : Nat} {rest : List Pending} (hm : s.mode = .idle)
    (he : endByte ∉ body) (hl : body.length ≤ s.cfg.capacity)
    (hp : s.pending = feedSeq ([startByte] ++ body ++ [endByte]) t d ++ rest) :
    RunsTo (body.length + 2) s { s with
      mode := .idle
      buffer := []
      lastByteTime := t + (body.length + 1) * d
      pending := rest
      responses := s.responses ++ List.replicate (body.length + 1) (.event .none) ++
        [.event (match validate body with
          | .ok r => .received r
          | .error k => .error k)] } := by
  have hp1 : s.pending = feedReq startByte t ::
      (feedSeq body (t + d) d ++ (feedReq endByte (t + d + body.length * d) :: rest)) := by
    rw [hp, List.append_assoc, feedSeq_append]
    simp [feedSeq, feedSeq_append]
  let opened : State :=
    { s with mode := .collecting, buffer := [], lastByteTime := t,
             pending := feedSeq body (t + d) d ++ (feedReq endByte (t + d + body.length * d) :: rest),
             responses := s.responses ++ [.event .none] }
  let filled : State :=
    { opened with buffer := body, lastByteTime := if body = [] then t else t + d + (body.length - 1) * d,
                  pending := feedReq endByte (t + d + body.length * d) :: rest,
                  responses := opened.responses ++ List.replicate body.length (.event .none) }
  have h1 : RunsTo 1 s opened := run_start hm hp1
  have h2 : RunsTo body.length opened filled := by
    have := run_collect body opened (t + d) d _ rfl he (by simpa [opened] using hl) rfl
    simpa [opened, filled] using this
  have h3 := run_end (s := filled) (t := t + d + body.length * d) (rest := rest) rfl rfl
  have hall := (h1.trans h2).trans h3
  have hk : 1 + body.length + 1 = body.length + 2 := by omega
  have ht : t + d + body.length * d = t + (body.length + 1) * d := by
    rw [Nat.add_mul]
    omega
  rw [hk, ht] at hall
  simpa [filled, opened, List.replicate_succ] using hall

end Sys2Proof.Machine
end

