-- ==== Sys2Proof/Tests/Slice0.lean ====
section
/-! SUPPORT. The model's own tests: ill-formed terms, decoded words, the vectors of 95_test_vectors.md, and a witness for
the hypotheses of every statement. -/

namespace Sys2Proof.Tests

open Sys2Proof.Machine

/-- A state of the capacity and timeout the spec's vectors use (`C = 16`, `TIMEOUT_MS = 100`). -/
def mk (m : Mode) (b : List Byte) (last : Nat) (c : Nat := 16) : State :=
  { State.construct { capacity := c, timeoutMs := 100 } last with mode := m, buffer := b }

/-- The next state, when there is one. -/
def next? : Host.Outcome State Fault Refusal → Option State
  | .next t => some t
  | .fault _ => none
  | .refused _ => none

/-- What a vector shows of an outcome: mode, buffer, stamp, last response. -/
def view (o : Host.Outcome State Fault Refusal) : Option (Mode × List Byte × Nat × Option Response) :=
  (next? o).map fun t => (t.mode, t.buffer, t.lastByteTime, t.responses.getLast?)

/-! ## WellFormed refuses each ill-formed term (the `cond` column of opcode_table.json) -/

theorem test_noise_of_start_is_ill_formed : (Instr.feedNoise 0x3A 0).wellFormed = false := by decide
theorem test_append_of_end_is_ill_formed : (Instr.feedAppend 0x7E 0).wellFormed = false := by decide
theorem test_overflow_of_end_is_ill_formed : (Instr.feedOverflow 0x7E 0).wellFormed = false := by decide
theorem test_append_of_start_is_well_formed : (Instr.feedAppend 0x3A 0).wellFormed = true := by decide

/-! ## Words written out from R88, R89 and R92, one or more for each constructor -/

theorem test_word_csum : decodeRequest { op := 0b000, span := [0x01, 0x42] } = .instr (.csum [0x01, 0x42]) := by decide
theorem test_word_feed : decodeRequest { op := 0b001, byte := 0x3A, now := 12 } = .instr (.feed 0x3A 12) := by decide
theorem test_word_encode : decodeRequest { op := 0b010, payload := [0x7E] } = .instr (.encode [0x7E]) := by decide
theorem test_word_tick : decodeRequest { op := 0b011, now := 2000 } = .instr (.tick 2000) := by decide
theorem test_word_reset : decodeRequest { op := 0b100, byte := 0x3A } = .instr .reset := by decide
theorem test_word_reserved : decodeRequest { op := 0b110 } = .rejected (.reservedOp 0b110) := by decide
theorem test_word_start : decode (.key 0b000111010 true 5) = .instr (.feedStart 5) := by decide
theorem test_word_noise : decode (.key 0b001111110 false 5) = .instr (.feedNoise 0x7E 5) := by decide
theorem test_word_end : decode (.key 0b101111110 true 9) = .instr (.feedEnd 9) := by decide
theorem test_word_append : decode (.key 0b100111010 false 3) = .instr (.feedAppend 0x3A 3) := by decide
theorem test_word_overflow : decode (.key 0b100000101 true 5) = .instr (.feedOverflow 0x05 5) := by decide
theorem test_encode_end : encode (.feedEnd 9) = .key 0b101111110 false 9 := by decide
theorem test_encode_append : encode (.feedAppend 0x01 3) = .key 0b100000001 false 3 := by decide

/-! ## R90: event fields -/

theorem test_event_word_timeout : (Event.error .timeout).word.kind = some 0b101 := by decide
theorem test_event_word_received :
    (Event.received { command := 0x42, subcommand := some 0x55, data := [0x01] }).word.subValid = some 1 := by decide

/-! ## Table words run as the first operation after reset -/

theorem test_table_requests_run_from_reset :
    [0, 1, 2, 3, 4].all (fun w => (next? (step (State.reset.withFetchWord 8 w))).isSome) = true := by decide
theorem test_table_keys_run_from_reset :
    [0x03A, 0x000, 0x17E, 0x100].all (fun w => (next? (step (State.reset.withFetchWord 16 w))).isSome) = true := by
  decide
theorem test_table_overflow_runs_without_capacity :
    view (step ((mk .idle [] 0 0).withFetchWord 16 0x100)) =
      some (.idle, [], 0, some (.event (.error .bufferOverflow))) := by decide

/-! ## CSUM and ENCODE: vectors CS7, CS6, E6, E7 -/

theorem test_csum_CS7 :
    view (exec (.csum [0x01, 0x02, 0x00, 0x09, 0x03]) (mk .idle [] 4)) = some (.idle, [], 4, some (.byte 0x0F)) := by
  decide
theorem test_csum_CS6 :
    view (exec (.csum [0xFF, 0xFF, 0xFF]) (mk .collecting [0x01] 4)) =
      some (.collecting, [0x01], 4, some (.byte 0xFD)) := by decide
theorem test_encode_E6 :
    view (exec (.encode [0x01, 0x42, 0x00, 0x09, 0x00, 0x55]) (mk .idle [] 0)) =
      some (.idle, [], 0, some (.bytes [0x3A, 0x01, 0x42, 0x00, 0x09, 0x00, 0x55, 0xA1, 0x7E])) := by decide
theorem test_encode_E7 :
    view (exec (.encode [0x10, 0x67, 0x00, 0x07]) (mk .idle [] 0)) =
      some (.idle, [], 0, some (.bytes [0x3A, 0x10, 0x67, 0x00, 0x07, 0x7E, 0x7E])) := by decide

/-! ## FEED and its rows: the examples of R122 to R133, vectors F1, F2, F3, F9, F17 -/

theorem test_feedStart_R122 :
    view (exec (.feedStart 5) (mk .idle [] 0)) = some (.collecting, [], 5, some (.event .none)) := by decide
theorem test_feedNoise_R123 :
    view (exec (.feedNoise 0x7E 5) (mk .idle [] 0)) = some (.idle, [], 5, some (.event .none)) := by decide
theorem test_feedAppend_R125 :
    view (exec (.feedAppend 0x02 3) (mk .collecting [0x01] 0)) =
      some (.collecting, [0x01, 0x02], 3, some (.event .none)) := by decide
theorem test_feedAppend_fills_the_buffer :
    view (exec (.feedAppend 0x05 3) (mk .collecting [1, 2, 3, 4] 0 5)) =
      some (.collecting, [1, 2, 3, 4, 5], 3, some (.event .none)) := by decide
theorem test_feedOverflow_R126 :
    view (exec (.feedOverflow 0x05 5) (mk .collecting [1, 2, 3, 4] 0 4)) =
      some (.idle, [], 5, some (.event (.error .bufferOverflow))) := by decide
theorem test_feedEnd_F2_full_buffer :
    view (exec (.feedEnd 9) (mk .collecting [0x10, 0x20, 0x00, 0x07, 0x37] 0 5)) =
      some (.idle, [], 9, some (.event (.received
        { command := 0x20, subcommand := none, data := [0x10, 0x20, 0x00, 0x07] }))) := by decide
theorem test_feedEnd_F17_both_checks_fail :
    view (exec (.feedEnd 7) (mk .collecting [0x01, 0x02, 0x00, 0x09, 0x03, 0xFF] 0)) =
      some (.idle, [], 7, some (.event (.error .checksumMismatch))) := by decide
theorem test_feed_F4_subcommand :
    view (exec (.feed 0x7E 20) (mk .collecting [0x01, 0x42, 0x00, 0x09, 0x00, 0x55, 0xA1] 19)) =
      some (.idle, [], 20, some (.event (.received
        { command := 0x42, subcommand := some 0x55, data := [0x01, 0x42, 0x00, 0x09, 0x00, 0x55] }))) := by decide
theorem test_feed_F9_swapped_length :
    view (exec (.feed 0x7E 7) (mk .collecting [0x01, 0x02, 0x07, 0x00, 0x0A] 6)) =
      some (.idle, [], 7, some (.event (.error .lengthMismatch))) := by decide

/-! ## TICK and RESET: vectors T3, T4, X3, X1 -/

theorem test_tick_T3 :
    view (exec (.tick 1110) (mk .collecting [0x01] 1010)) =
      some (.collecting, [0x01], 1010, some (.event .none)) := by decide
theorem test_tick_T4 :
    view (exec (.tick 1111) (mk .collecting [0x01] 1010)) =
      some (.idle, [], 1010, some (.event (.error .timeout))) := by decide
theorem test_reset_X3 :
    view (exec .reset (mk .collecting [0x01, 0x02] 40)) = some (.idle, [], 40, some .nothing) := by decide
theorem test_reset_X1 : view (exec .reset (mk .idle [] 5)) = some (.idle, [], 5, some .nothing) := by decide

/-! ## Witnesses: for each statement with hypotheses, states and operands that meet them together -/

theorem witness_FeedStartOpensFrame : (mk .idle [] 0).mode = .idle := by decide

theorem witness_FeedNoiseIsDiscarded : (mk .idle [] 0).mode = .idle ∧ (0x7E : Byte) ≠ 0x3A := by decide

/-- At the last index of the buffer. -/
theorem witness_FeedAppendStoresAtLen :
    (mk .collecting [1, 2, 3] 0 4).mode = .collecting ∧ (0x3A : Byte) ≠ 0x7E ∧
      (mk .collecting [1, 2, 3] 0 4).len < (mk .collecting [1, 2, 3] 0 4).cfg.capacity := by decide

theorem witness_FeedOverflowDropsFrame :
    (mk .collecting [1, 2, 3, 4] 0 4).mode = .collecting ∧ (0x3A : Byte) ≠ 0x7E ∧
      (mk .collecting [1, 2, 3, 4] 0 4).cfg.capacity ≤ (mk .collecting [1, 2, 3, 4] 0 4).len := by decide

theorem witness_ShortBodyIsTooShort :
    (mk .collecting [1, 2, 3, 4] 0).mode = .collecting ∧ (mk .collecting [1, 2, 3, 4] 0).len < 5 := by decide

/-- The first clause at the least length. -/
theorem witness_FailedChecksReportInOrder_checksum :
    ([0x10, 0x20, 0x00, 0x07, 0x38] : List Byte) = [0x10, 0x20, 0x00, 0x07] ++ [0x38] ∧
      4 ≤ ([0x10, 0x20, 0x00, 0x07] : List Byte).length ∧
      (0x38 : Byte) ≠ BitVec.ofNat 8 (([0x10, 0x20, 0x00, 0x07] : List Byte).map BitVec.toNat).sum := by decide

/-- The second clause: vector F18. -/
theorem witness_FailedChecksReportInOrder_length :
    ([1, 2, 0, 9, 3, 0x0F] : List Byte) = [1, 2, 0, 9, 3] ++ [0x0F] ∧ 4 ≤ ([1, 2, 0, 9, 3] : List Byte).length ∧
      (0x0F : Byte) = BitVec.ofNat 8 (([1, 2, 0, 9, 3] : List Byte).map BitVec.toNat).sum ∧
      256 * (([1, 2, 0, 9, 3] : List Byte).getD 2 0).toNat + (([1, 2, 0, 9, 3] : List Byte).getD 3 0).toNat ≠
        ([1, 2, 0, 9, 3] : List Byte).length + 3 := by decide

/-- Without a sub-command (five bytes of data, vector S2+). -/
theorem witness_ValidFrameIsDelivered_short :
    (mk .collecting [1, 2, 0, 8, 3, 0x0E] 0).buffer = [1, 2, 0, 8, 3] ++ [0x0E] ∧
      4 ≤ ([1, 2, 0, 8, 3] : List Byte).length ∧ ([1, 2, 0, 8, 3] : List Byte).length < 6 ∧
      (0x0E : Byte) = BitVec.ofNat 8 (([1, 2, 0, 8, 3] : List Byte).map BitVec.toNat).sum ∧
      256 * (([1, 2, 0, 8, 3] : List Byte).getD 2 0).toNat + (([1, 2, 0, 8, 3] : List Byte).getD 3 0).toNat =
        ([1, 2, 0, 8, 3] : List Byte).length + 3 := by decide

/-- With a sub-command (six bytes of data, vector F4). -/
theorem witness_ValidFrameIsDelivered_long :
    (mk .collecting [1, 0x42, 0, 9, 0, 0x55, 0xA1] 0).buffer = [1, 0x42, 0, 9, 0, 0x55] ++ [0xA1] ∧
      6 ≤ ([1, 0x42, 0, 9, 0, 0x55] : List Byte).length ∧
      (0xA1 : Byte) = BitVec.ofNat 8 (([1, 0x42, 0, 9, 0, 0x55] : List Byte).map BitVec.toNat).sum ∧
      256 * (([1, 0x42, 0, 9, 0, 0x55] : List Byte).getD 2 0).toNat +
        (([1, 0x42, 0, 9, 0, 0x55] : List Byte).getD 3 0).toNat =
        ([1, 0x42, 0, 9, 0, 0x55] : List Byte).length + 3 := by decide

theorem witness_EndAlwaysReturnsToIdle : (mk .collecting [] 0).mode = .collecting ∧
    ∃ u, exec (.feedEnd 7) { mk .collecting [] 0 with buffer := [1] } = .next u := ⟨by decide, _, rfl⟩

/-- Both clauses, at the last free index and at the full buffer. -/
theorem witness_StartInsideFrameIsData :
    (mk .collecting [1] 0 2).mode = .collecting ∧ (mk .collecting [1] 0 2).len < (mk .collecting [1] 0 2).cfg.capacity ∧
      (mk .collecting [1, 2] 0 2).len = (mk .collecting [1, 2] 0 2).cfg.capacity := by decide

/-- Every clause: the wrong mode, the excluded byte, and the `len` test at its boundary on each side. -/
theorem witness_RowsRunOnlyWhereSelected :
    (mk .collecting [] 0).mode ≠ .idle ∧ ¬ ((mk .idle [] 0).mode = .idle ∧ (0x3A : Byte) ≠ 0x3A) ∧
      (mk .idle [] 0).mode ≠ .collecting ∧
      ¬ ((mk .collecting [1, 2] 0 2).mode = .collecting ∧ (1 : Byte) ≠ 0x7E ∧
        (mk .collecting [1, 2] 0 2).len < (mk .collecting [1, 2] 0 2).cfg.capacity) ∧
      ¬ ((mk .collecting [1] 0 2).mode = .collecting ∧ (1 : Byte) ≠ 0x7E ∧
        (mk .collecting [1] 0 2).cfg.capacity ≤ (mk .collecting [1] 0 2).len) := by decide

/-- Every clause over the mode, the byte and `len`. -/
theorem witness_FeedEventsByRow :
    (mk .idle [] 0).mode = .idle ∧
      ((mk .collecting [1] 0 2).mode = .collecting ∧ (1 : Byte) ≠ 0x7E ∧
        (mk .collecting [1] 0 2).len < (mk .collecting [1] 0 2).cfg.capacity) ∧
      ((mk .collecting [1, 2] 0 2).mode = .collecting ∧ (1 : Byte) ≠ 0x7E ∧
        (mk .collecting [1, 2] 0 2).cfg.capacity ≤ (mk .collecting [1, 2] 0 2).len) := by decide

theorem witness_OnlyFeedStampsTime : ∃ t, exec (.feedStart 7) (mk .idle [] 0) = .next t := ⟨_, rfl⟩

theorem witness_BufferIsAppendOnly : ∃ t, exec (.feed 0x3A 7) (mk .collecting [1] 0 2) = .next t ∧ t.buffer ≠ [] :=
  ⟨_, rfl, by decide⟩

/-- RESET, TICK one past the timeout, and each fed byte that clears, the overflow at `len == C`. -/
theorem witness_BufferIsClearedExactlyThen :
    (mk .collecting [1] 0 2).buffer ≠ [] ∧
    (∃ t, exec .reset (mk .collecting [1] 0 2) = .next t ∧ t.buffer = []) ∧
    (∃ t, exec (.tick 101) (mk .collecting [1] 0 2) = .next t ∧ (mk .collecting [1] 0 2).cfg.timeoutMs < 101 - 0 ∧
      t.buffer = []) ∧
    (∃ t, exec (.feed 0x3A 1) (mk .idle [] 0 2) = .next t ∧ fedByte (.feed 0x3A 1) = some 0x3A ∧ t.buffer = []) ∧
    (∃ t, exec (.feed 0x7E 1) (mk .collecting [1] 0 2) = .next t ∧ fedByte (.feed 0x7E 1) = some 0x7E ∧
      t.buffer = []) ∧
    (∃ t, exec (.feed 0x3A 1) (mk .collecting [1, 2] 0 2) = .next t ∧ (0x3A : Byte) ≠ 0x7E ∧
      (mk .collecting [1, 2] 0 2).cfg.capacity = (mk .collecting [1, 2] 0 2).len ∧ t.buffer = []) :=
  ⟨by decide, ⟨_, rfl, rfl⟩, ⟨_, rfl, by decide, rfl⟩, ⟨_, rfl, rfl, rfl⟩, ⟨_, rfl, rfl, rfl⟩,
    ⟨_, rfl, by decide, rfl, rfl⟩⟩

theorem witness_RaisingAnErrorResetsLocally :
    ∃ t, exec (.tick 1111) (mk .collecting [1] 1010) = .next t ∧
      t.responses = (mk .collecting [1] 1010).responses ++ [.event (.error .timeout)] := ⟨_, rfl, by decide⟩

theorem witness_ReceivedOnlyFromEnd :
    ∃ t r, exec (.feedEnd 9) (mk .collecting [0x10, 0x20, 0x00, 0x07, 0x37] 0) = .next t ∧
      t.responses = (mk .collecting [0x10, 0x20, 0x00, 0x07, 0x37] 0).responses ++ [.event (.received r)] :=
  ⟨_, _, rfl, rfl⟩

theorem witness_OneResponsePerOperation :
    (∃ t, exec (.csum []) (mk .idle [] 0) = .next t) ∧ (∃ t, exec (.encode [1]) (mk .idle [] 0) = .next t) ∧
      (∃ t, exec .reset (mk .idle [] 0) = .next t) ∧ (∃ t, exec (.tick 1) (mk .idle [] 0) = .next t) ∧
      (∃ t, exec (.feed 1 1) (mk .idle [] 0) = .next t) := ⟨⟨_, rfl⟩, ⟨_, rfl⟩, ⟨_, rfl⟩, ⟨_, rfl⟩, ⟨_, rfl⟩⟩

/-- At the boundary: elapsed 101 with a timeout of 100. -/
theorem witness_TickReportsTimeout :
    (mk .collecting [1] 1010).mode = .collecting ∧ 0 < (mk .collecting [1] 1010).len ∧
      (mk .collecting [1] 1010).cfg.timeoutMs < 1111 - (mk .collecting [1] 1010).lastByteTime := by decide

theorem witness_TimeoutCondition : (mk .collecting [1] 1010).lastByteTime ≤ 1010 := by decide

/-- Each of the three cases, the last at its boundary. -/
theorem witness_TickOtherwiseChangesNothing :
    (mk .idle [] 1010).mode = .idle ∧ (mk .collecting [] 1010).buffer = [] ∧
      ((mk .collecting [1] 1010).lastByteTime ≤ 1110 ∧
        1110 - (mk .collecting [1] 1010).lastByteTime ≤ (mk .collecting [1] 1010).cfg.timeoutMs) := by decide

theorem witness_TickRefusesClockGoneBack :
    (mk .collecting [1] 1010).mode = .collecting ∧ 0 < (mk .collecting [1] 1010).len ∧
      1009 < (mk .collecting [1] 1010).lastByteTime := by decide

theorem witness_ResetTwiceIsResetOnce : (mk .idle [] 5).Inv ∧ (mk .idle [] 5).mode = .idle := by decide

/-- The invariants hold with a full buffer, and the step goes on from there. -/
theorem witness_StepKeepsInv :
    State.Inv { mk .collecting [1, 2] 0 2 with pending := [feedReq 0x7E 3] } ∧
      ∃ t, step { mk .collecting [1, 2] 0 2 with pending := [feedReq 0x7E 3] } = .next t := ⟨by decide, _, rfl⟩

theorem witness_StepKeepsResponsesLegal :
    State.Inv { mk .collecting [0x10, 0x20, 0x00, 0x07, 0x37] 0 with
        pending := [feedReq 0x7E 3], responses := [.event (.received (receivedOf [0x10, 0x20, 0x00, 0x07]))] } ∧
      State.ResponsesLegal { mk .collecting [0x10, 0x20, 0x00, 0x07, 0x37] 0 with
        pending := [feedReq 0x7E 3], responses := [.event (.received (receivedOf [0x10, 0x20, 0x00, 0x07]))] } ∧
      ∃ t, step { mk .collecting [0x10, 0x20, 0x00, 0x07, 0x37] 0 with
        pending := [feedReq 0x7E 3],
        responses := [.event (.received (receivedOf [0x10, 0x20, 0x00, 0x07]))] } = .next t :=
  ⟨by decide, by decide, _, rfl⟩

theorem witness_StepRunsTheDecodedRequest :
    State.pending { mk .idle [] 0 with pending := [feedReq 0x3A 5, resetReq] } =
        { issue := .serial, request := (feedReq 0x3A 5).request } :: [resetReq] ∧
      decodeRequest (feedReq 0x3A 5).request = .instr (.feed 0x3A 5) ∧ (mk .idle [] 0).pending = [] := by decide

/-- The least reserved code and the greatest code with a meaning. -/
theorem witness_ReservedCodesAreRefused :
    State.pending { mk .idle [] 0 with pending := [{ request := { op := 0b101 } }] } =
        { request := { op := 0b101 } } :: [] ∧
      5 ≤ (0b101 : BitVec 3).toNat ∧ (0b100 : BitVec 3).toNat < 5 := by decide

theorem witness_OnlyPureOperationsRunUnserialised :
    decodeRequest { op := 0b010, payload := [1] } = .instr (.encode [1]) ∧
      decodeRequest { op := 0b011, now := 5 } = .instr (.tick 5) ∧
      State.pending { mk .idle [] 0 with pending := [{ issue := .fromHandler, request := { op := 0b011, now := 5 } }] } =
        { issue := .fromHandler, request := { op := 0b011, now := 5 } } :: [] ∧
      State.pending { mk .idle [] 0 with pending := [{ issue := .overlapping, request := { op := 0b010 } }] } =
        { issue := .overlapping, request := { op := 0b010 } } :: [] := by decide

theorem witness_DecodeInvertsEncode :
    (Instr.feedNoise 0xFF 3).wellFormed = true ∧
      decode (.request { op := 0b001, byte := 0xFF, now := 3 }) = .instr (.feed 0xFF 3) ∧
      decode (.key 0b111111111 true 3) = .instr (.feedOverflow 0xFF 3) := by decide

/-- Two requests that differ only in operands FEED does not have. -/
theorem witness_UnlistedOperandsAreIgnored :
    ({ op := 0b001, byte := 1, now := 2, span := [9] } : Request) ≠
        { op := 0b001, byte := 1, now := 2, payload := [7] } ∧
      ({ op := 0b001, byte := 1, now := 2, span := [9] } : Request).byte =
        ({ op := 0b001, byte := 1, now := 2, payload := [7] } : Request).byte ∧
      ({ op := 0b001, byte := 1, now := 2, span := [9] } : Request).now =
        ({ op := 0b001, byte := 1, now := 2, payload := [7] } : Request).now := by decide

/-- At the least capacity that receives anything. -/
theorem witness_EncodedFrameIsReceivedBack :
    (mk .idle [] 0 5).mode = .idle ∧ Deliverable (mk .idle [] 0 5).cfg [0x10, 0x20, 0x00, 0x07] ∧
      State.pending { mk .idle [] 0 5 with pending := sendSeq [0x10, 0x20, 0x00, 0x07] 5 1 ++ [resetReq] } =
        sendSeq [0x10, 0x20, 0x00, 0x07] 5 1 ++ [resetReq] := by decide

/-- A body that fills the buffer. -/
theorem witness_BodyIsJudgedAtEnd :
    (mk .idle [] 0 2).mode = .idle ∧ (0x7E : Byte) ∉ ([0x3A, 1] : List Byte) ∧
      ([0x3A, 1] : List Byte).length ≤ (mk .idle [] 0 2).cfg.capacity ∧
      State.pending { mk .idle [] 0 2 with pending := feedSeq ([0x3A] ++ [0x3A, 1] ++ [0x7E]) 0 1 ++ [] } =
        feedSeq ([0x3A] ++ [0x3A, 1] ++ [0x7E]) 0 1 ++ [] := by decide

/-- Too short, at three bytes and the least capacity that holds them. -/
theorem witness_EncodedFrameFails_short :
    (0x7E : Byte) ∉ ([1, 2, 3] : List Byte) ∧ checksum [1, 2, 3] ≠ 0x7E ∧ ([1, 2, 3] : List Byte).length ≤ 3 ∧
      ([1, 2, 3] : List Byte).length + 1 ≤ (mk .idle [] 0 4).cfg.capacity := by decide

/-- Length mismatch, at four bytes and the least capacity that holds them. -/
theorem witness_EncodedFrameFails_length :
    (0x7E : Byte) ∉ ([1, 2, 7, 0] : List Byte) ∧ checksum [1, 2, 7, 0] ≠ 0x7E ∧ 4 ≤ ([1, 2, 7, 0] : List Byte).length ∧
      ([1, 2, 7, 0] : List Byte).length + 1 ≤ (mk .idle [] 0 5).cfg.capacity ∧
      256 * (([1, 2, 7, 0] : List Byte).getD 2 0).toNat + (([1, 2, 7, 0] : List Byte).getD 3 0).toNat ≠
        ([1, 2, 7, 0] : List Byte).length + 3 := by decide

/-- Overflow, at as many bytes as the capacity. -/
theorem witness_EncodedFrameFails_overflow :
    (0x7E : Byte) ∉ ([1, 2, 3] : List Byte) ∧ checksum [1, 2, 3] ≠ 0x7E ∧
      (mk .idle [] 0 3).cfg.capacity ≤ ([1, 2, 3] : List Byte).length ∧
      State.pending { mk .idle [] 0 3 with pending := sendSeq [1, 2, 3] 0 1 ++ [] } = sendSeq [1, 2, 3] 0 1 ++ [] := by
  decide

/-- A payload with `END` in it, after a part that fills the buffer. -/
theorem witness_EncodedFrameFails_end :
    (mk .idle [] 0 1).mode = .idle ∧ (0x7E : Byte) ∉ ([1] : List Byte) ∧
      ([1] : List Byte).length ≤ (mk .idle [] 0 1).cfg.capacity ∧
      State.pending { mk .idle [] 0 1 with pending := sendSeq ([1] ++ [0x7E] ++ [2]) 0 1 ++ [] } =
        sendSeq ([1] ++ [0x7E] ++ [2]) 0 1 ++ [] := by decide

theorem witness_OverflowAtCapacityPlusOne :
    (mk .idle [] 0 1).mode = .idle ∧ (0x7E : Byte) ∉ ([1, 0x3A] : List Byte) ∧
      ([1, 0x3A] : List Byte).length = (mk .idle [] 0 1).cfg.capacity + 1 ∧
      State.pending { mk .idle [] 0 1 with pending := feedSeq ([0x3A] ++ [1, 0x3A]) 0 1 ++ [] } =
        feedSeq ([0x3A] ++ [1, 0x3A]) 0 1 ++ [] := by decide

theorem witness_FramesBackToBack :
    (mk .idle [] 0).mode = .idle ∧
      (∀ f ∈ [([0x00, 0x7E], [0x10, 0x20, 0x00, 0x07]), ([], [0x3A, 0x3A, 0x00, 0x07])],
        (0x3A : Byte) ∉ f.1 ∧ Deliverable (mk .idle [] 0).cfg f.2) ∧
      State.pending { mk .idle [] 0 with
        pending := feedSeq ([([0x00, 0x7E], [0x10, 0x20, 0x00, 0x07]), ([], [0x3A, 0x3A, 0x00, 0x07])].flatMap
          fun f => f.1 ++ frameBytes f.2) 0 1 ++ [] } =
        feedSeq ([([0x00, 0x7E], [0x10, 0x20, 0x00, 0x07]), ([], [0x3A, 0x3A, 0x00, 0x07])].flatMap
          fun f => f.1 ++ frameBytes f.2) 0 1 ++ [] := by decide

/-- A run that goes on, and a run that is refused. -/
theorem witness_StampIsUnobservable :
    (mk .collecting [] 9).buffer = [] ∧
      (∃ t, RunsTo 1 { mk .collecting [] 9 with pending := [tickReq 3] } t) ∧
      ∃ r, Host.Core.run Sys2Proof.core 1 { mk .collecting [] 9 with pending := [{ request := { op := 0b111 } }] } =
        .refused r := ⟨by decide, ⟨_, rfl⟩, _, rfl⟩

theorem witness_PureOperationsDoNotDisturb :
    ∃ t, RunsTo 3 { mk .idle [] 0 with pending := [feedReq 0x3A 1, csumReq [1], feedReq 1 2] } t := ⟨_, rfl⟩

/-- With a frame in flight, and clock readings that stand still, the least the duty admits. -/
theorem witness_StepKeepsDuties :
    State.HostDuties [3, 5] { mk .collecting [1] 5 with pending := [tickReq 5, feedReq 2 5] } ∧
      State.StampAmong [3, 5] (mk .collecting [1] 5) ∧
      ∃ t, step { mk .collecting [1] 5 with pending := [tickReq 5, feedReq 2 5] } = .next t :=
  ⟨by decide, by decide, _, rfl⟩

/-- In flight as above; and after construction, where no reading is earlier, whatever the stamp, with a CSUM issued from
inside the handling of an event. -/
theorem witness_NoStopWithinDuties :
    State.HostDuties [5] { mk .collecting [1] 5 with pending := [tickReq 5, feedReq 0x3A 5, resetReq, csumReq []] } ∧
      State.StampAmong [5] (mk .collecting [1] 5) ∧
      State.HostDuties [] { mk .idle [] 500 with
        pending := [feedReq 0x3A 0, { csumReq [] with issue := .fromHandler }, tickReq 0] } ∧
      State.StampAmong [] (mk .idle [] 500) := by
  decide

theorem witness_EveryLegalStateIsReached :
    ((Mode.collecting = .idle → ([0x3A, 1] : List Byte) = []) ∧ (0x7E : Byte) ∉ ([0x3A, 1] : List Byte) ∧
      ([0x3A, 1] : List Byte).length ≤ ({ capacity := 2, timeoutMs := 100 } : Config).capacity) ∧
    ((Mode.idle = .idle → ([] : List Byte) = []) ∧ ([] : List Byte).length ≤
      ({ capacity := 0, timeoutMs := 100 } : Config).capacity) := by decide

theorem witness_CollectedBytesAreThoseFedSinceStart :
    ∃ u, RunsTo 5 { mk .idle [] 0 with pending := [feedReq 9 1, feedReq 0x3A 2, feedReq 1 3, tickReq 4, feedReq 0x3A 5] } u ∧
      u.mode = .collecting ∧ u.buffer = [1, 0x3A] ∧ u.lastByteTime = 5 := ⟨_, rfl, by decide⟩

theorem witness_NonEndFeedsReachIdle :
    (mk .collecting [1] 0 2).mode = .collecting ∧ (mk .collecting [1] 0 2).len ≤ (mk .collecting [1] 0 2).cfg.capacity ∧
      (0x7E : Byte) ∉ ([2, 3] : List Byte) ∧
      ([2, 3] : List Byte).length + (mk .collecting [1] 0 2).len = (mk .collecting [1] 0 2).cfg.capacity + 1 ∧
      State.pending { mk .collecting [1] 0 2 with pending := feedSeq [2, 3] 0 1 ++ [] } = feedSeq [2, 3] 0 1 ++ [] := by
  decide

theorem witness_LoneStartNeverTimesOut :
    (mk .collecting [] 1000).mode = .collecting ∧ (mk .collecting [] 1000).buffer = [] ∧
      State.pending { mk .collecting [] 1000 with pending := [tickReq 2000, tickReq 3000] } =
        [2000, 3000].map tickReq := by decide

theorem witness_OneTimeoutPerStall :
    (mk .collecting [1] 2010).mode = .collecting ∧ 0 < (mk .collecting [1] 2010).len ∧
      (mk .collecting [1] 2010).cfg.timeoutMs < 2111 - (mk .collecting [1] 2010).lastByteTime ∧
      State.pending { mk .collecting [1] 2010 with pending := [tickReq 2111, tickReq 2112] } =
        tickReq 2111 :: [2112].map tickReq := by decide

/-- Vector T7 at its boundary: the TICK a full timeout after the late byte. -/
theorem witness_LateByteRestartsTheMeasurement :
    (mk .collecting [1] 10).mode = .collecting ∧ (2 : Byte) ≠ 0x7E ∧
      (mk .collecting [1] 10).len < (mk .collecting [1] 10).cfg.capacity ∧ 150 ≤ 250 ∧
      250 - 150 ≤ (mk .collecting [1] 10).cfg.timeoutMs ∧
      State.pending { mk .collecting [1] 10 with pending := [feedReq 2 150, tickReq 250] } =
        feedReq 2 150 :: tickReq 250 :: [] := by decide

theorem witness_ResetAbandonsTheFrame :
    State.pending { mk .collecting [0x10, 0x20, 0x00, 0x07, 0x37] 9 with pending := [resetReq, feedReq 0x7E 10] } =
      resetReq :: feedReq 0x7E 10 :: [] := by decide

end Sys2Proof.Tests
end

/-! Proofs of the family 00_scope.md: the one response of every operation, and the request a step runs. -/

namespace Sys2Proof.Machine

/-! ## The response of an operation (R11, R89) -/

/-- The type of the response operation `i` gives: a byte for CSUM, the bytes of a frame for ENCODE, nothing for RESET, an
event for TICK and FEED. Only TICK reports a timeout (R137). -/
structure Response.FitsOperation (r : Response) (i : Instr) : Prop where
  csum : ∀ span, i = .csum span → ∃ b, r = .byte b
  encode : ∀ p, i = .encode p → ∃ bs, r = .bytes bs ∧ bs.length = p.length + 3
  reset : i = .reset → r = .nothing
  tick : ∀ now, i = .tick now → r = .event .none ∨ r = .event (.error .timeout)
  fed : (fedByte i).isSome = true → ∃ e, r = .event e ∧ e ≠ .error .timeout

namespace Response.FitsOperation

theorem ofCsum (span : List Byte) (b : Byte) : FitsOperation (.byte b) (.csum span) where
  csum := fun _ _ => ⟨b, rfl⟩
  encode := nofun
  reset := nofun
  tick := nofun
  fed := nofun

theorem ofEncode (p : List Byte) : FitsOperation (.bytes (encodeFrame p)) (.encode p) where
  csum := nofun
  encode := by
    rintro _ ⟨⟩
    exact ⟨_, rfl, encodeFrame_length p⟩
  reset := nofun
  tick := nofun
  fed := nofun

theorem ofReset : FitsOperation .nothing .reset where
  csum := nofun
  encode := nofun
  reset := fun _ => rfl
  tick := nofun
  fed := nofun

theorem ofTick (now : Nat) {r : Response} (hr : r = .event .none ∨ r = .event (.error .timeout)) :
    FitsOperation r (.tick now) where
  csum := nofun
  encode := nofun
  reset := nofun
  tick := fun _ _ => hr
  fed := nofun

/-- An operation that is fed a byte is FEED or one of its rows, so any event but a timeout fits it. -/
theorem ofFed {i : Instr} {b : Byte} {e : Event} (hb : fedByte i = some b) (he : e ≠ .error .timeout) :
    FitsOperation (.event e) i where
  csum := by rintro _ rfl; cases hb
  encode := by rintro _ rfl; cases hb
  reset := by rintro rfl; cases hb
  tick := by rintro _ rfl; cases hb
  fed := fun _ => ⟨e, rfl, he⟩

end Response.FitsOperation

/-- R181: validation never raises a timeout. -/
theorem validate_error_ne_timeout {body : List Byte} {k : ErrorKind} (h : validate body = .error k) : k ≠ .timeout := by
  rcases validate_error h with rfl | rfl | rfl <;> decide

/-- R7: an effect adds exactly one response, of its operation's type. -/
theorem Effect.one_response {s t : State} {i : Instr} (h : Effect s i t) :
    ∃ r, t.responses = s.responses ++ [r] ∧ r.FitsOperation i := by
  cases h with
  | csum span => exact ⟨_, rfl, .ofCsum span _⟩
  | encode p => exact ⟨_, rfl, .ofEncode p⟩
  | reset => exact ⟨_, rfl, .ofReset⟩
  | tickNothing now => exact ⟨_, rfl, .ofTick now (.inl rfl)⟩
  | tickTimeout now => exact ⟨_, rfl, .ofTick now (.inr rfl)⟩
  | opened hb => exact ⟨_, rfl, .ofFed hb nofun⟩
  | noise hb => exact ⟨_, rfl, .ofFed hb nofun⟩
  | delivered hb => exact ⟨_, rfl, .ofFed hb nofun⟩
  | rejected hb _ _ hv =>
    exact ⟨_, rfl, .ofFed hb fun he => validate_error_ne_timeout hv (Event.error.inj he)⟩
  | appended hb => exact ⟨_, rfl, .ofFed hb nofun⟩
  | overflowed hb => exact ⟨_, rfl, .ofFed hb nofun⟩

/-! ## The obligations -/

/-- Settles O22: `exec` answers only effects, and each adds one response of its operation's type. -/
theorem oneResponsePerOperation : Obligations.OneResponsePerOperation := by
  intro i s t h
  have heffect : Effect s i t := exec_effect h
  obtain ⟨hcfg, hpending⟩ := heffect.frame
  obtain ⟨r, hresponses, hr⟩ := heffect.one_response
  exact ⟨r, hresponses, hcfg, hpending, hr.csum, hr.encode, hr.reset, hr.tick, hr.fed⟩

/-- Settles O33: the two cases of `step` that issue no refusal, a serial request and an empty queue. -/
theorem stepRunsTheDecodedRequest : Obligations.StepRunsTheDecodedRequest :=
  ⟨fun _ _ _ _ hpending hdecode => step_serial hpending hdecode, fun _ hpending => step_nil hpending⟩

end Sys2Proof.Machine

/-! Proofs of the family 10_state.md: construction, the invariants of R24, the stamp that no operation reads (U8), the
states that are reached (R36), and the history of a collected frame. -/

namespace Sys2Proof.Machine

/-! ## What a request decodes to (R88, R89) -/

/-- The five requests that name an operation, and the operation each names. -/
theorem decodeRequest_cases {r : Request} {i : Instr} (h : decodeRequest r = .instr i) :
    (r.op = opCsum ∧ i = .csum r.span) ∨ (r.op = opFeed ∧ i = .feed r.byte r.now) ∨
    (r.op = opEncode ∧ i = .encode r.payload) ∨ (r.op = opTick ∧ i = .tick r.now) ∨
    (r.op = opReset ∧ i = .reset) := by
  unfold decodeRequest at h
  split_ifs at h <;> cases h <;> simp [*]

/-- A pending request feeds the byte and the time of the operation it decodes to, and no other request feeds one. -/
theorem Pending.feed_of_decode {p : Pending} {i : Instr} (h : decodeRequest p.request = .instr i) :
    p.feedByte = fedByte i ∧ p.feedTime = fedTime i := by
  rcases decodeRequest_cases h with ⟨hop, rfl⟩ | ⟨hop, rfl⟩ | ⟨hop, rfl⟩ | ⟨hop, rfl⟩ | ⟨hop, rfl⟩ <;>
    simp [Pending.feedByte, Pending.feedTime, hop, fedByte, fedTime, opCsum, opFeed, opEncode, opTick, opReset]

/-! ## Runs -/

/-- The machine has no fault, so `core.run` follows the step. -/
theorem run_succ_of_next {k : Nat} {s u : State} (h : step s = .next u) :
    Host.Core.run Sys2Proof.core (k + 1) s = Host.Core.run Sys2Proof.core k u := by
  have hcore : Sys2Proof.core.step s = .next u := h
  simp only [Host.Core.run, hcore]

/-- A run depends on its first state only through the first step. -/
theorem run_succ_congr {k : Nat} {s t : State} (h : step s = step t) :
    Host.Core.run Sys2Proof.core (k + 1) s = Host.Core.run Sys2Proof.core (k + 1) t := by
  have hcore : Sys2Proof.core.step s = Sys2Proof.core.step t := h
  simp only [Host.Core.run, hcore]

theorem RunsTo.unique {k : Nat} {s t u : State} (ht : RunsTo k s t) (hu : RunsTo k s u) : t = u :=
  Host.Outcome.next.inj (ht.symm.trans hu)

/-- A run of at least one step begins with a step. -/
theorem RunsTo.uncons {k : Nat} {s t : State} (h : RunsTo (k + 1) s t) : ∃ u, step s = .next u ∧ RunsTo k u t := by
  cases hs : step s with
  | next u => exact ⟨u, rfl, (run_succ_of_next hs).symm.trans h⟩
  | fault r => cases r
  | refused r =>
    have hcore : Sys2Proof.core.step s = .refused r := hs
    simp [RunsTo, Host.Core.run, hcore] at h

/-- A run passes through a state after each number of its steps. -/
theorem RunsTo.split {j k : Nat} {s t : State} (h : RunsTo (j + k) s t) : ∃ u, RunsTo j s u ∧ RunsTo k u t := by
  induction j generalizing s with
  | zero => exact ⟨s, .refl s, by simpa using h⟩
  | succ j ih =>
    obtain ⟨v, hstep, hrun⟩ := RunsTo.uncons (k := j + k) (by rwa [Nat.add_right_comm])
    obtain ⟨u, hju, hkt⟩ := ih hrun
    exact ⟨u, .cons hstep hju, hkt⟩

theorem RunsTo.unsnoc {k : Nat} {s t : State} (h : RunsTo (k + 1) s t) : ∃ u, RunsTo k s u ∧ step u = .next t := by
  obtain ⟨u, hk, hone⟩ := h.split
  obtain ⟨v, hstep, hzero⟩ := RunsTo.uncons hone
  cases hzero
  exact ⟨u, hk, hstep⟩

/-- A step that takes a request has the effect of the operation it decodes to. -/
theorem step_effect_of_cons {s t : State} {p : Pending} {rest : List Pending} (hp : s.pending = p :: rest)
    (h : step s = .next t) :
    ∃ i, decodeRequest p.request = .instr i ∧ Effect { s with pending := rest } i t := by
  rcases step_effect h with ⟨hnil, -⟩ | ⟨q, qs, i, hq, hd, -, he⟩
  · simp [hnil] at hp
  · obtain ⟨rfl, rfl⟩ : p = q ∧ rest = qs := by simpa using hp.symm.trans hq
    exact ⟨i, hd, he⟩

/-- A run of as many steps takes exactly the first requests. -/
theorem RunsTo.pending_eq {ps rest : List Pending} {s t : State} (h : RunsTo ps.length s t)
    (hp : s.pending = ps ++ rest) : t.pending = rest := by
  induction ps generalizing s with
  | nil =>
    cases h
    exact hp
  | cons p ps ih =>
    obtain ⟨u, hstep, hrun⟩ := RunsTo.uncons h
    obtain ⟨i, -, heffect⟩ := step_effect_of_cons hp hstep
    exact ih hrun heffect.frame.2

/-! ## The invariants (R24) -/

/-- R24 (a) to (c) hold of every empty buffer, in either mode. -/
theorem inv_of_buffer_nil {s : State} (h : s.buffer = []) : s.Inv := by
  refine ⟨?_, fun _ => h, ?_⟩
  · rw [h]
    exact wf_nil s.cfg
  · simp [h]

/-- Every effect keeps the invariants: it leaves mode and buffer alone, empties the buffer, or appends a byte other than
`END` where there is room. -/
theorem Effect.keeps_inv {s t : State} {i : Instr} (h : Effect s i t) (hs : s.Inv) : t.Inv := by
  have ⟨hfit, _, hend⟩ := hs
  have hwf := h.keeps_wf hfit
  cases h with
  | csum | encode | tickNothing | noise => exact hs
  | reset | tickTimeout | opened | delivered | rejected | overflowed => exact inv_of_buffer_nil rfl
  | appended _ _ hm hne _ =>
    refine ⟨hwf, fun hidle => ?_, ?_⟩
    · exact absurd (hm.symm.trans hidle) (by decide)
    · simpa [hend] using hne.symm

/-- Settles O31: a step changes nothing or has an effect, and effects keep the invariants. -/
theorem stepKeepsInv : Obligations.StepKeepsInv := by
  intro s t hs hstep
  rcases step_effect hstep with ⟨-, rfl⟩ | ⟨p, rest, i, -, -, -, heffect⟩
  · exact hs
  · exact heffect.keeps_inv hs

/-- Settles O29: each field of a constructed state, by the field lemmas of `State.construct`. -/
theorem constructionState : Obligations.ConstructionState :=
  ⟨fun cfg t => ⟨State.construct_mode cfg t, State.construct_buffer cfg t, rfl, State.construct_cfg cfg t⟩,
    State.construct_mode _ _, State.construct_buffer _ _, rfl⟩

theorem construct_inv (cfg : Config) (t : Nat) : (State.construct cfg t).Inv :=
  inv_of_buffer_nil (State.construct_buffer cfg t)

/-- Settles O30: a constructed state has an empty buffer and has answered nothing. -/
theorem constructionMeetsInv : Obligations.ConstructionMeetsInv := by
  refine ⟨construct_inv, construct_inv _ _, ?_⟩
  have hnone : State.reset.responses = [] := State.construct_responses _ _
  simp [State.ResponsesLegal, hnone]

/-! ## The stamp while no frame with bytes is in flight (R23, U8) -/

/-- No frame with bytes is in flight, so the next TICK does not look at `last_byte_time`. -/
def State.StampUnread (s : State) : Prop := s.mode = .idle ∨ s.buffer = []

/-- The outcome `o'` is `o`, or both go on and differ in a stamp alone that is still unread: `v` in `o'`. -/
def StampUnobserved (v : Nat) (o o' : Host.Outcome State Fault Refusal) : Prop :=
  o' = o ∨ ∃ t : State, t.StampUnread ∧ o = .next t ∧ o' = .next (t.stamp v)

theorem State.StampUnread.not_inFlight {s : State} (h : s.StampUnread) : ¬ s.inFlight = true := by
  intro hf
  obtain ⟨hm, hb⟩ := inFlight_eq_true.1 hf
  rcases h with hidle | hnil
  · exact absurd (hm.symm.trans hidle) (by decide)
  · exact hb hnil

/-- A TICK without a frame with bytes in flight answers `None` and reads no register more (R163). -/
theorem execTick_of_stampUnread {s : State} (now : Nat) (h : s.StampUnread) :
    execTick now s = .next (s.respond (.event .none)) := if_neg h.not_inFlight

/-- FEED and its rows overwrite the stamp before they do anything else, so what they do is the same for every old one
(R121). -/
theorem exec_stamp_of_fed {i : Instr} (h : (fedByte i).isSome = true) (v : Nat) (s : State) :
    exec i (s.stamp v) = exec i s := by
  cases i with
  | csum | encode | tick | reset => cases h
  | feed | feedStart | feedNoise | feedEnd | feedAppend | feedOverflow => rfl

/-- An unread stamp is not observed by any operation: the others than FEED carry it along, FEED overwrites it. -/
theorem exec_stampUnobserved (i : Instr) {s : State} (v : Nat) (h : s.StampUnread) :
    StampUnobserved v (exec i s) (exec i (s.stamp v)) := by
  cases i with
  | csum span => exact .inr ⟨s.respond (.byte (checksum span)), h, rfl, rfl⟩
  | encode p => exact .inr ⟨s.respond (.bytes (encodeFrame p)), h, rfl, rfl⟩
  | reset => exact .inr ⟨s.toIdle.respond .nothing, .inl rfl, rfl, rfl⟩
  | tick now =>
    exact .inr ⟨s.respond (.event .none), h, execTick_of_stampUnread now h,
      execTick_of_stampUnread (s := s.stamp v) now h⟩
  | feed | feedStart | feedNoise | feedEnd | feedAppend | feedOverflow => exact .inl (exec_stamp_of_fed rfl v s)

/-- The queue and the decoder do not look at the stamp, so a step observes it no more than its operation does. -/
theorem step_stampUnobserved {s : State} (v : Nat) (h : s.StampUnread) :
    StampUnobserved v (step s) (step (s.stamp v)) := by
  unfold step
  rw [State.stamp_pending]
  split
  · exact .inr ⟨s, h, rfl, rfl⟩
  · split
    · exact .inl rfl
    · split
      · exact .inl rfl
      · exact exec_stampUnobserved _ (s := s.dropPending) v h

theorem run_stampUnobserved (k : Nat) {s : State} (v : Nat) (h : s.StampUnread) :
    StampUnobserved v (Host.Core.run Sys2Proof.core k s) (Host.Core.run Sys2Proof.core k (s.stamp v)) := by
  induction k generalizing s with
  | zero => exact .inr ⟨s, h, rfl, rfl⟩
  | succ k ih =>
    rcases step_stampUnobserved v h with heq | ⟨t, ht, hs, hv⟩
    · exact .inl (run_succ_congr heq)
    · rw [run_succ_of_next hs, run_succ_of_next hv]
      exact ih ht

/-- Settles O47: the two runs end alike, or in next states that differ in the stamp alone. -/
theorem stampIsUnobservable : Obligations.StampIsUnobservable := by
  intro s v k hunread
  rcases run_stampUnobserved k v hunread with heq | ⟨t', -, hs, hv⟩
  · exact ⟨fun t ht => ⟨t, heq.trans ht, rfl⟩, fun r hr => heq.trans hr⟩
  · refine ⟨fun t ht => ?_, fun r hr => ?_⟩
    · obtain rfl : t' = t := RunsTo.unique hs ht
      exact ⟨t'.stamp v, hv, rfl⟩
    · cases hs.symm.trans hr

/-! ## Every legal state is reached (R36) -/

/-- A byte other than `START` fed in `Idle` leaves its stamp and nothing else. -/
theorem run_noise_byte {s : State} {b : Byte} {t : Nat} {rest : List Pending} (hm : s.mode = .idle)
    (hb : b ≠ startByte) (hp : s.pending = feedReq b t :: rest) :
    RunsTo 1 s { s with lastByteTime := t, pending := rest, responses := s.responses ++ [.event .none] } := by
  refine .one ?_
  rw [step_feedReq hp, execFeed, feedClass_noise.2 ⟨hm, hb⟩]
  exact runRow_selected (feedClass_noise.2 ⟨hm, hb⟩)

theorem mem_feedSeq {w : List Byte} {t d : Nat} {p : Pending} (h : p ∈ feedSeq w t d) :
    ∃ b now, p = feedReq b now := by
  induction w generalizing t with
  | nil => cases h
  | cons b w ih =>
    rcases List.mem_cons.1 h with rfl | h
    · exact ⟨b, t, rfl⟩
    · exact ih h

theorem clock_feedReq (b : Byte) (t : Nat) : (feedReq b t).clock = some t := rfl

theorem feedReq_proper (b : Byte) (t : Nat) : (feedReq b t).proper :=
  ⟨show opFeed.toNat < 5 by decide, .inr rfl⟩

/-- All FEEDs of a sequence without a period carry one clock reading. -/
theorem clocks_feedSeq_zero (w : List Byte) (t : Nat) :
    (feedSeq w t 0).filterMap Pending.clock = List.replicate w.length t := by
  induction w with
  | nil => rfl
  | cons b w ih => simp [feedSeq, clock_feedReq, ih, List.replicate_succ]

/-- FEEDs at one clock reading are within the host's duties (R196). -/
theorem hostDuties_feedSeq_zero {s : State} {w : List Byte} {t : Nat} (hp : s.pending = feedSeq w t 0) :
    s.HostDuties [] := by
  rw [State.HostDuties, hp]
  refine ⟨fun p hmem => ?_, ?_⟩
  · obtain ⟨b, now, rfl⟩ := mem_feedSeq hmem
    exact feedReq_proper b now
  · simp [clocks_feedSeq_zero, List.pairwise_replicate]

/-- R36 for `Collecting`: `START` and the bytes, all fed at one time. -/
theorem run_start_collect {s : State} {b : List Byte} {t : Nat} (hm : s.mode = .idle) (hend : endByte ∉ b)
    (hfit : b.length ≤ s.cfg.capacity) (hp : s.pending = feedSeq (startByte :: b) t 0) :
    RunsTo (b.length + 1) s { s with
      mode := .collecting
      buffer := b
      lastByteTime := t
      pending := []
      responses := s.responses ++ [.event .none] ++ List.replicate b.length (.event .none) } := by
  have hopen := run_start (rest := feedSeq b t 0) hm hp
  have hcollect := run_collect b { s with
    mode := .collecting, buffer := [], lastByteTime := t, pending := feedSeq b t 0,
    responses := s.responses ++ [.event .none] } t 0 [] rfl hend (by simpa using hfit) (by simp)
  rw [Nat.add_comm]
  simpa using hopen.trans hcollect

/-- Settles O51: a noise byte at `t` reaches `Idle`, `START` and the bytes at `t` reach `Collecting`. -/
theorem everyLegalStateIsReached : Obligations.EveryLegalStateIsReached := by
  intro cfg t0 t m b hidle hend hfit
  have hserial : ∀ w, ∀ p ∈ feedSeq w t 0, p.issue = .serial := fun w p hmem => by
    obtain ⟨c, now, rfl⟩ := mem_feedSeq hmem
    rfl
  cases m with
  | idle =>
    obtain rfl : b = [] := hidle rfl
    have hrun := run_noise_byte (s := { State.construct cfg t0 with pending := feedSeq [0] t 0 })
      (b := 0) (t := t) (rest := []) rfl (by decide) rfl
    exact ⟨feedSeq [0] t 0, _, hostDuties_feedSeq_zero rfl, hserial _, hrun, rfl, rfl, rfl, rfl, rfl⟩
  | collecting =>
    have hrun := run_start_collect (s := { State.construct cfg t0 with pending := feedSeq (startByte :: b) t 0 })
      rfl hend hfit rfl
    have hlength : (feedSeq (startByte :: b) t 0).length = b.length + 1 := by simp
    exact ⟨feedSeq (startByte :: b) t 0, _, hostDuties_feedSeq_zero rfl, hserial _, hlength ▸ hrun,
      rfl, rfl, rfl, rfl, rfl⟩

/-! ## The history of a collected frame (R24 (c), (d)) -/

/-- From `Idle` only the FEED of `START` goes to `Collecting`, and it leaves an empty buffer and its own stamp. -/
theorem Effect.opens {s t : State} {i : Instr} (h : Effect s i t) (hs : s.mode = .idle) (ht : t.mode = .collecting) :
    fedByte i = some startByte ∧ t.buffer = [] ∧ fedTime i = some t.lastByteTime := by
  cases h with
  | opened hb hn _ => exact ⟨hb, rfl, hn⟩
  | csum | encode | tickNothing | noise => cases hs.symm.trans ht
  | reset | tickTimeout | delivered | rejected | overflowed => cases ht
  | appended _ _ hm => cases hs.symm.trans hm

/-- An operation that stays in `Collecting` appends the byte it is fed, never `END`, and leaves the time it is fed. -/
theorem Effect.collects {s t : State} {i : Instr} (h : Effect s i t) (hs : s.mode = .collecting)
    (ht : t.mode = .collecting) :
    t.buffer = s.buffer ++ (fedByte i).toList ∧ endByte ∉ (fedByte i).toList ∧
      t.lastByteTime = (fedTime i).getD s.lastByteTime := by
  cases h with
  | csum | encode | tickNothing => simp [fedByte, fedTime]
  | appended hb hn _ hne _ => simpa [hb, hn] using hne.symm
  | opened _ _ hm | noise _ _ hm => cases hs.symm.trans hm
  | reset | tickTimeout | delivered | rejected | overflowed => cases ht

/-- `Effect.opens` in terms of the request a step takes. -/
theorem step_opens {s t : State} {p : Pending} {rest : List Pending} (hp : s.pending = p :: rest)
    (h : step s = .next t) (hs : s.mode = .idle) (ht : t.mode = .collecting) :
    p.feedByte = some startByte ∧ t.buffer = [] ∧ p.feedTime = some t.lastByteTime := by
  obtain ⟨i, hd, heffect⟩ := step_effect_of_cons hp h
  obtain ⟨hbyte, htime⟩ := Pending.feed_of_decode hd
  simpa only [hbyte, htime] using heffect.opens hs ht

/-- `Effect.collects` in terms of the request a step takes. -/
theorem step_collects {s t : State} {p : Pending} {rest : List Pending} (hp : s.pending = p :: rest)
    (h : step s = .next t) (hs : s.mode = .collecting) (ht : t.mode = .collecting) :
    t.buffer = s.buffer ++ p.feedByte.toList ∧ endByte ∉ p.feedByte.toList ∧
      t.lastByteTime = p.feedTime.getD s.lastByteTime := by
  obtain ⟨i, hd, heffect⟩ := step_effect_of_cons hp h
  obtain ⟨hbyte, htime⟩ := Pending.feed_of_decode hd
  simpa only [hbyte, htime] using heffect.collects hs ht

/-- What R24 (c) and (d) say of a run from `s` to `u` that took `pre`, then the `START` in the request `start`, then
`post`. -/
structure CollectedSince (s u : State) (pre : List Pending) (start : Pending) (post : List Pending) : Prop where
  opened : ∃ v : State, RunsTo pre.length s v ∧ v.mode = .idle
  fedStart : start.feedByte = some startByte
  collecting : ∀ j w, j ≤ post.length → RunsTo (pre.length + 1 + j) s w → w.mode = .collecting
  buffer : u.buffer = post.filterMap Pending.feedByte
  noEnd : endByte ∉ u.buffer
  stamp : ((start :: post).filterMap Pending.feedTime).getLast? = some u.lastByteTime

/-- A step from `Idle` into `Collecting` begins such a history. -/
theorem CollectedSince.begin {s w u : State} {pre rest : List Pending} {p : Pending} (hrun : RunsTo pre.length s w)
    (hp : w.pending = p :: rest) (hstep : step w = .next u) (hw : w.mode = .idle) (hu : u.mode = .collecting) :
    CollectedSince s u pre p [] := by
  obtain ⟨hbyte, hbuffer, htime⟩ := step_opens hp hstep hw hu
  refine ⟨⟨w, hrun, hw⟩, hbyte, fun j x hj hx => ?_, hbuffer, by simp [hbuffer], ?_⟩
  · obtain rfl : j = 0 := by simpa using hj
    obtain rfl : x = u := hx.unique (hrun.trans (.one hstep))
    exact hu
  · simp [htime]

/-- A step that stays in `Collecting` adds its request to the history. -/
theorem CollectedSince.snoc {s w u : State} {pre post rest : List Pending} {start p : Pending}
    (h : CollectedSince s w pre start post) (hrun : RunsTo (pre.length + 1 + post.length) s w)
    (hp : w.pending = p :: rest) (hstep : step w = .next u) (hw : w.mode = .collecting) (hu : u.mode = .collecting) :
    CollectedSince s u pre start (post ++ [p]) := by
  obtain ⟨hbuffer, hend, hstamp⟩ := step_collects hp hstep hw hu
  refine ⟨h.opened, h.fedStart, fun j x hj hx => ?_, ?_, ?_, ?_⟩
  · rcases Nat.lt_or_eq_of_le hj with hlt | rfl
    · exact h.collecting j x (by simpa [Nat.lt_succ_iff] using hlt) hx
    · rw [List.length_append, List.length_singleton, ← Nat.add_assoc] at hx
      obtain rfl : x = u := hx.unique (hrun.trans (.one hstep))
      exact hu
  · rw [hbuffer, h.buffer, List.filterMap_append]
    cases hb : p.feedByte <;> simp [hb]
  · rw [hbuffer]
    exact List.mem_append.not.2 (not_or.2 ⟨h.noEnd, hend⟩)
  · rw [← List.cons_append, List.filterMap_append, List.getLast?_append, h.stamp, hstamp]
    cases ht : p.feedTime <;> simp [ht]

/-- Every run from `Idle` to `Collecting` has such a history: induction on the requests it took, split at the end. -/
theorem exists_collectedSince {s : State} (hs : s.mode = .idle) (ps : List Pending) :
    ∀ (rest : List Pending) (u : State), s.pending = ps ++ rest → RunsTo ps.length s u → u.mode = .collecting →
      ∃ pre start post, ps = pre ++ start :: post ∧ CollectedSince s u pre start post := by
  induction ps using List.reverseRecOn with
  | nil =>
    intro rest u _ hrun hu
    cases hrun
    cases hs.symm.trans hu
  | append_singleton ps p ih =>
    intro rest u hp hrun hu
    rw [List.append_assoc] at hp
    rw [List.length_append] at hrun
    obtain ⟨w, hinit, hstep⟩ := RunsTo.unsnoc hrun
    have hnext : w.pending = p :: rest := hinit.pending_eq hp
    cases hw : w.mode with
    | idle => exact ⟨ps, p, [], rfl, .begin hinit hnext hstep hw hu⟩
    | collecting =>
      obtain ⟨pre, start, post, rfl, hsince⟩ := ih (p :: rest) w hp hinit hw
      refine ⟨pre, start, post ++ [p], by simp, hsince.snoc ?_ hnext hstep hw hu⟩
      simpa [Nat.add_assoc, Nat.add_comm 1] using hinit

/-- Settles O52: the history of the run, field by field. -/
theorem collectedBytesAreThoseFedSinceStart : Obligations.CollectedBytesAreThoseFedSinceStart := by
  intro s u ps rest hs hp hrun hu
  obtain ⟨pre, start, post, hsplit, hsince⟩ := exists_collectedSince hs ps rest u hp hrun hu
  obtain ⟨v, hv, hidle⟩ := hsince.opened
  exact ⟨pre, post, start, v, hsplit, hv, hidle, hsince.fedStart, hsince.collecting, hsince.buffer, hsince.noEnd,
    hsince.stamp⟩

end Sys2Proof.Machine

/-! Proofs of the family 20_memory.md: the buffer is append-only between clears (R51), what clears it (R53), and the
exclusion that FEED, TICK and RESET need (R60). -/

namespace Sys2Proof.Machine

/-! ## The buffer is append-only between clears (R51) -/

/-- The buffer an effect leaves: the one it found, an empty one, or the one it found and the byte it was fed. -/
theorem Effect.buffer_same_or_nil_or_snoc {s t : State} {i : Instr} (h : Effect s i t) :
    t.buffer = s.buffer ∨ t.buffer = [] ∨
      ∃ b, fedByte i = some b ∧ b ≠ endByte ∧ s.mode = .collecting ∧ s.len < s.cfg.capacity ∧
        t.buffer = s.buffer ++ [b] := by
  cases h with
  | csum | encode | tickNothing | noise => exact .inl rfl
  | reset | tickTimeout | opened | delivered | rejected | overflowed => exact .inr (.inl rfl)
  | appended hb _ hm hne hroom => exact .inr (.inr ⟨_, hb, hne, hm, hroom, rfl⟩)

/-- An index below `len` reads the same in every state whose buffer extends this one. -/
theorem memRead_of_buffer_append {s t : State} {w : List Byte} (h : t.buffer = s.buffer ++ w) {j : Nat}
    (hj : j < s.len) : t.memRead j = s.memRead j := by
  rw [State.memRead, h]
  exact List.getElem?_append_left hj

/-- Settles O18: of the three buffers an effect can leave, the two that are not empty extend the one it found. -/
theorem bufferIsAppendOnly : Obligations.BufferIsAppendOnly := by
  intro i s t h
  have hbuffer := (exec_effect h).buffer_same_or_nil_or_snoc
  refine ⟨hbuffer, fun hne j hj => ?_⟩
  rcases hbuffer with hsame | hnil | ⟨b, -, -, -, -, hsnoc⟩
  · exact memRead_of_buffer_append (w := []) (by simpa using hsame) hj
  · exact absurd hnil hne
  · exact memRead_of_buffer_append hsnoc hj

/-! ## What clears the buffer (R53) -/

/-- A byte whose FEED clears the buffer: `START` in `Idle`, `END` in `Collecting`, any other byte in `Collecting` without
room (log 9). -/
def State.ClearingByte (s : State) (b : Byte) : Prop :=
  s.mode = .idle ∧ b = startByte ∨ s.mode = .collecting ∧ b = endByte ∨
    s.mode = .collecting ∧ b ≠ endByte ∧ s.cfg.capacity ≤ s.len

/-- The operations that clear the buffer in this state: RESET, a TICK past the timeout, and a fed byte that clears it. -/
def State.ClearedBy (s : State) (i : Instr) : Prop :=
  i = .reset ∨ (∃ now, i = .tick now ∧ s.mode = .collecting ∧ s.cfg.timeoutMs < now - s.lastByteTime) ∨
    ∃ b, fedByte i = some b ∧ s.ClearingByte b

theorem not_clearedBy_csum (s : State) (span : List Byte) : ¬ s.ClearedBy (.csum span) := by
  rintro (h | ⟨_, h, _⟩ | ⟨_, h, _⟩) <;> cases h

theorem not_clearedBy_encode (s : State) (p : List Byte) : ¬ s.ClearedBy (.encode p) := by
  rintro (h | ⟨_, h, _⟩ | ⟨_, h, _⟩) <;> cases h

theorem clearedBy_tick {s : State} {now : Nat} :
    s.ClearedBy (.tick now) ↔ s.mode = .collecting ∧ s.cfg.timeoutMs < now - s.lastByteTime := by
  constructor
  · rintro (h | ⟨_, h, hlate⟩ | ⟨_, h, _⟩) <;> cases h
    exact hlate
  · exact fun h => .inr (.inl ⟨now, rfl, h⟩)

/-- FEED and its rows clear the buffer when the byte they are fed does. -/
theorem clearedBy_of_fed {s : State} {i : Instr} {b : Byte} (hb : fedByte i = some b) :
    s.ClearedBy i ↔ s.ClearingByte b := by
  constructor
  · rintro (rfl | ⟨_, rfl, _⟩ | ⟨c, hc, h⟩)
    · cases hb
    · cases hb
    · obtain rfl : b = c := Option.some.inj (hb.symm.trans hc)
      exact h
  · exact fun h => .inr (.inr ⟨b, hb, h⟩)

theorem not_clearingByte_of_noise {s : State} {b : Byte} (hm : s.mode = .idle) (hb : b ≠ startByte) :
    ¬ s.ClearingByte b := by
  simp [State.ClearingByte, hm, hb]

theorem not_clearingByte_of_room {s : State} {b : Byte} (hm : s.mode = .collecting) (hb : b ≠ endByte)
    (hroom : s.len < s.cfg.capacity) : ¬ s.ClearingByte b := by
  simp [State.ClearingByte, hm, hb, hroom]

/-- The operations of R53 leave an empty buffer. A TICK past the timeout that answers nothing found it empty (R163). -/
theorem Effect.buffer_nil_of_clearedBy {s t : State} {i : Instr} (h : Effect s i t) (hc : s.ClearedBy i) :
    t.buffer = [] := by
  cases h with
  | csum span => exact absurd hc (not_clearedBy_csum s span)
  | encode p => exact absurd hc (not_clearedBy_encode s p)
  | tickNothing now hquiet =>
    obtain ⟨hm, hlate⟩ := clearedBy_tick.1 hc
    by_contra hne
    obtain ⟨-, hintime⟩ := hquiet hm hne
    omega
  | noise hb _ hm hne => exact absurd ((clearedBy_of_fed hb).1 hc) (not_clearingByte_of_noise hm hne)
  | appended hb _ hm hne hroom => exact absurd ((clearedBy_of_fed hb).1 hc) (not_clearingByte_of_room hm hne hroom)
  | reset | tickTimeout | opened | delivered | rejected | overflowed => rfl

/-- Only the operations of R53 empty a buffer that holds bytes. -/
theorem Effect.clearedBy_of_buffer_nil {s t : State} {i : Instr} (h : Effect s i t) (hs : s.buffer ≠ [])
    (ht : t.buffer = []) : s.ClearedBy i := by
  cases h with
  | csum | encode | tickNothing | noise => exact absurd ht hs
  | appended => simp at ht
  | reset => exact .inl rfl
  | tickTimeout now hm _ _ hgt => exact clearedBy_tick.2 ⟨hm, hgt⟩
  | opened hb _ hm => exact (clearedBy_of_fed hb).2 (.inl ⟨hm, rfl⟩)
  | delivered hb _ hm | rejected hb _ hm => exact (clearedBy_of_fed hb).2 (.inr (.inl ⟨hm, rfl⟩))
  | overflowed hb _ hm hne hfull => exact (clearedBy_of_fed hb).2 (.inr (.inr ⟨hm, hne, hfull⟩))

/-- Settles O19: both directions, by the effect of the operation. -/
theorem bufferIsClearedExactlyThen : Obligations.BufferIsClearedExactlyThen := by
  intro i s t h
  have heffect := exec_effect h
  exact ⟨heffect.buffer_nil_of_clearedBy, heffect.clearedBy_of_buffer_nil⟩

/-! ## Exclusion (R60) -/

/-- A request that its issue does not refuse runs as `exec` of its operation. -/
theorem step_of_issueRefusal_none {s : State} {p : Pending} {rest : List Pending} {i : Instr}
    (hp : s.pending = p :: rest) (hd : decodeRequest p.request = .instr i) (hi : issueRefusal p.issue i = none) :
    step s = exec i { s with pending := rest } := by
  simp [step, hp, hd, hi, State.dropPending]

/-- A request that its issue refuses is refused by that name. -/
theorem step_of_issueRefusal_some {s : State} {p : Pending} {rest : List Pending} {i : Instr} {r : Refusal}
    (hp : s.pending = p :: rest) (hd : decodeRequest p.request = .instr i) (hi : issueRefusal p.issue i = some r) :
    step s = .refused r := by
  simp [step, hp, hd, hi]

/-- No issue refuses an operation that leaves the engine alone. -/
theorem issueRefusal_of_not_touchesEngine {i : Instr} (h : touchesEngine i = false) (issue : Issue) :
    issueRefusal issue i = none := by
  cases issue <;> simp [issueRefusal, h]

theorem issueRefusal_fromHandler {i : Instr} (h : touchesEngine i = true) :
    issueRefusal .fromHandler i = some .reentrantOperation := if_pos h

theorem issueRefusal_overlapping {i : Instr} (h : touchesEngine i = true) :
    issueRefusal .overlapping i = some .overlappingOperation := if_pos h

/-- R60, R114, R151: of the requests, all but CSUM and ENCODE touch the engine. -/
theorem touchesEngine_of_decode {p : Pending} {i : Instr} (h : decodeRequest p.request = .instr i) :
    touchesEngine i = !p.isPure := by
  rcases decodeRequest_cases h with ⟨hop, rfl⟩ | ⟨hop, rfl⟩ | ⟨hop, rfl⟩ | ⟨hop, rfl⟩ | ⟨hop, rfl⟩ <;>
    rw [Pending.isPure, hop] <;> rfl

/-- Settles O35: `step` asks the issue of a request only for an operation that touches the engine. -/
theorem onlyPureOperationsRunUnserialised : Obligations.OnlyPureOperationsRunUnserialised := by
  intro s p rest i hp hd
  have htouches := touchesEngine_of_decode hd
  refine ⟨fun hop => ?_, fun hop => ?_⟩
  · have hpure : p.isPure = true := by
      rcases hop with h | h <;> rw [Pending.isPure, h] <;> rfl
    rw [hpure] at htouches
    exact step_of_issueRefusal_none hp hd (issueRefusal_of_not_touchesEngine htouches p.issue)
  · have himpure : p.isPure = false := by
      rcases hop with h | h | h <;> rw [Pending.isPure, h] <;> rfl
    rw [himpure] at htouches
    refine ⟨fun hissue => ?_, fun hissue => ?_⟩
    · exact step_of_issueRefusal_some hp hd (hissue ▸ issueRefusal_fromHandler htouches)
    · exact step_of_issueRefusal_some hp hd (hissue ▸ issueRefusal_overlapping htouches)

end Sys2Proof.Machine

/-! Proofs of the family 30_encoding.md: requests and their codes (R88, R89, R93), the FEED decode and its table (R92), the
fields of an event (R90), and the frames a body delivers (R87). -/

namespace Sys2Proof

open Machine (Mode startByte endByte)

/-! ## Requests (R88, R89, R93) -/

theorem decodeRequest_csum {r : Request} (h : r.op = opCsum) : decodeRequest r = .instr (.csum r.span) := by
  rw [decodeRequest, h]
  rfl

theorem decodeRequest_feed {r : Request} (h : r.op = opFeed) : decodeRequest r = .instr (.feed r.byte r.now) := by
  rw [decodeRequest, h]
  rfl

theorem decodeRequest_encode {r : Request} (h : r.op = opEncode) : decodeRequest r = .instr (.encode r.payload) := by
  rw [decodeRequest, h]
  rfl

theorem decodeRequest_tick {r : Request} (h : r.op = opTick) : decodeRequest r = .instr (.tick r.now) := by
  rw [decodeRequest, h]
  rfl

theorem decodeRequest_reset {r : Request} (h : r.op = opReset) : decodeRequest r = .instr .reset := by
  rw [decodeRequest, h]
  rfl

/-- R88: the five codes below 5 are those of the operations. -/
theorem op_toNat_lt_five_iff (op : BitVec 3) :
    op.toNat < 5 ↔ op = opCsum ∨ op = opFeed ∨ op = opEncode ∨ op = opTick ∨ op = opReset := by
  revert op
  decide

/-- R93: the reserved codes are rejected by name. -/
theorem decodeRequest_reserved {r : Request} (h : 5 ≤ r.op.toNat) :
    decodeRequest r = .rejected (.reservedOp r.op) := by
  have hop := mt (op_toNat_lt_five_iff r.op).2 (Nat.not_lt.2 h)
  simp only [not_or] at hop
  simp only [decodeRequest, hop, if_false]

/-- Settles O34: `step` refuses what the decode rejects, before it looks at the issue; the five other codes decode. -/
theorem reservedCodesAreRefused : Obligations.ReservedCodesAreRefused := by
  refine ⟨fun s p rest hp hop => ?_, fun r hop => ?_⟩
  · simp [Machine.step, hp, decodeRequest_reserved hop, Machine.rejectRefusal]
  · rcases (op_toNat_lt_five_iff r.op).1 hop with h | h | h | h | h
    · exact ⟨_, decodeRequest_csum h⟩
    · exact ⟨_, decodeRequest_feed h⟩
    · exact ⟨_, decodeRequest_encode h⟩
    · exact ⟨_, decodeRequest_tick h⟩
    · exact ⟨_, decodeRequest_reset h⟩

/-- Settles O39: each code's operation carries the operands listed for it, and a reserved code carries none. -/
theorem unlistedOperandsAreIgnored : Obligations.UnlistedOperandsAreIgnored := by
  intro r q hop hspan hbyte hnow hpayload
  by_cases hlt : r.op.toNat < 5
  · rcases (op_toNat_lt_five_iff r.op).1 hlt with h | h | h | h | h
    · rw [decodeRequest_csum h, decodeRequest_csum (hop ▸ h), hspan h]
    · rw [decodeRequest_feed h, decodeRequest_feed (hop ▸ h), hbyte h, hnow (.inl h)]
    · rw [decodeRequest_encode h, decodeRequest_encode (hop ▸ h), hpayload h]
    · rw [decodeRequest_tick h, decodeRequest_tick (hop ▸ h), hnow (.inr h)]
    · rw [decodeRequest_reset h, decodeRequest_reset (hop ▸ h)]
  · have hge : 5 ≤ r.op.toNat := Nat.not_lt.1 hlt
    rw [decodeRequest_reserved hge, decodeRequest_reserved (hop ▸ hge), hop]

/-! ## Decode and encode (R88, R92) -/

/-- A key built from a mode and a byte decodes to the row of the class the two select. -/
theorem decode_feedKey (m : Mode) (b : Byte) (full : Bool) (now : Nat) :
    decode (.key (feedKey m b) full now) = .instr (rowInstr (feedClass m b full) b now) := by
  simp only [decode, keyMode_feedKey, keyByte_feedKey]

/-- Decoding a key of a known class. -/
theorem decode_feedKey_of_class {m : Mode} {b : Byte} {full : Bool} {cls : FeedClass} (h : feedClass m b full = cls)
    (now : Nat) : decode (.key (feedKey m b) full now) = .instr (rowInstr cls b now) := by
  rw [decode_feedKey, h]

theorem decode_encode {i : Instr} (h : i.wellFormed = true) : decode (encode i) = .instr i := by
  cases i with
  | csum | feed | encode | tick | reset => rfl
  | feedStart now => exact decode_feedKey_of_class rfl now
  | feedNoise b now => exact decode_feedKey_of_class (Machine.feedClass_noise.2 ⟨rfl, bne_iff_ne.1 h⟩) now
  | feedEnd now => exact decode_feedKey_of_class rfl now
  | feedAppend b now => exact decode_feedKey_of_class (Machine.feedClass_append.2 ⟨rfl, bne_iff_ne.1 h, rfl⟩) now
  | feedOverflow b now => exact decode_feedKey_of_class (Machine.feedClass_overflow.2 ⟨rfl, bne_iff_ne.1 h, rfl⟩) now

/-- The row that a mode and a byte select is well formed, and its key is theirs. -/
theorem selectedRow_wellFormed_and_encode (m : Mode) (b : Byte) (full : Bool) (now : Nat) :
    (rowInstr (feedClass m b full) b now).wellFormed = true ∧
      ∃ f, encode (rowInstr (feedClass m b full) b now) = .key (feedKey m b) f now := by
  cases hc : feedClass m b full with
  | start =>
    obtain ⟨rfl, rfl⟩ := Machine.feedClass_start.1 hc
    exact ⟨rfl, _, rfl⟩
  | noise =>
    obtain ⟨rfl, hne⟩ := Machine.feedClass_noise.1 hc
    exact ⟨bne_iff_ne.2 hne, _, rfl⟩
  | frameEnd =>
    obtain ⟨rfl, rfl⟩ := Machine.feedClass_frameEnd.1 hc
    exact ⟨rfl, _, rfl⟩
  | append =>
    obtain ⟨rfl, hne, -⟩ := Machine.feedClass_append.1 hc
    exact ⟨bne_iff_ne.2 hne, _, rfl⟩
  | overflow =>
    obtain ⟨rfl, hne, -⟩ := Machine.feedClass_overflow.1 hc
    exact ⟨bne_iff_ne.2 hne, _, rfl⟩

theorem wellFormed_of_decode {e : Encoded} {i : Instr} (h : decode e = .instr i) : i.wellFormed = true := by
  cases e with
  | request r =>
    rcases Machine.decodeRequest_cases h with ⟨-, rfl⟩ | ⟨-, rfl⟩ | ⟨-, rfl⟩ | ⟨-, rfl⟩ | ⟨-, rfl⟩ <;> rfl
  | key k full now =>
    cases h
    exact (selectedRow_wellFormed_and_encode ..).1

/-- A key is built from its fields, so the row it decodes to has that key. -/
theorem encode_of_decode_key {k : FeedKey} {full : Bool} {now : Nat} {i : Instr}
    (h : decode (.key k full now) = .instr i) : ∃ f, encode i = .key k f now := by
  cases h
  have henc := (selectedRow_wellFormed_and_encode (keyMode k) (keyByte k) full now).2
  rwa [feedKey_of_fields] at henc

/-- Settles O37: each constructor's encoding, and the rows that keys decode to. -/
theorem decodeInvertsEncode : Obligations.DecodeInvertsEncode :=
  ⟨fun _ => decode_encode, fun _ _ => wellFormed_of_decode, fun _ _ _ _ => encode_of_decode_key⟩

/-- Settles O36: each word is decoded by evaluation. -/
theorem writtenWordsDecode : Obligations.WrittenWordsDecode := by
  unfold Obligations.WrittenWordsDecode
  decide

/-! ## The table of the FEED decode (R92, R97) -/

/-- A key is determined by its mode and its byte. -/
theorem eq_feedKey_iff {k : FeedKey} {m : Mode} {b : Byte} : k = feedKey m b ↔ keyMode k = m ∧ keyByte k = b := by
  constructor
  · rintro rfl
    exact ⟨keyMode_feedKey m b, keyByte_feedKey m b⟩
  · rintro ⟨rfl, rfl⟩
    exact (feedKey_of_fields k).symm

/-- The mask of the rows START and END tests every bit. -/
theorem and_keyMask_eq_iff {k : FeedKey} {m : Mode} {b : Byte} :
    k &&& 0x1FF = feedKey m b ↔ keyMode k = m ∧ keyByte k = b := by
  have hmask : k &&& 0x1FF = k := BitVec.and_allOnes
  rw [hmask, eq_feedKey_iff]

/-- The mask of the other rows tests the mode bit. -/
theorem and_modeMask_eq_iff {k : FeedKey} {m : Mode} : k &&& 0x100 = feedKey m 0 ↔ keyMode k = m := by
  have hmask : k &&& 0x100 = if k.getLsbD 8 then 0x100 else 0 := BitVec.and_twoPow k 8
  rw [hmask, keyMode]
  cases k.getLsbD 8 <;> cases m <;> decide

/-- Settles O38: each row of the table tests the whole key or its mode bit, as the class that it selects does. -/
theorem feedDecodeIsFirstMatch : Obligations.FeedDecodeIsFirstMatch := by
  intro k full
  have hstart : k &&& 0x1FF#9 = 0x03A#9 ↔ keyMode k = .idle ∧ keyByte k = startByte :=
    and_keyMask_eq_iff (m := .idle) (b := startByte)
  have hnoise : k &&& 0x100#9 = 0x000#9 ↔ keyMode k = .idle := and_modeMask_eq_iff (m := .idle)
  have hend : k &&& 0x1FF#9 = 0x17E#9 ↔ keyMode k = .collecting ∧ keyByte k = endByte :=
    and_keyMask_eq_iff (m := .collecting) (b := endByte)
  have hcollecting : k &&& 0x100#9 = 0x100#9 ↔ keyMode k = .collecting := and_modeMask_eq_iff (m := .collecting)
  cases hm : keyMode k with
  | idle =>
    by_cases hb : keyByte k = startByte <;>
      simp [feedRows, feedClass, FeedRow.matchesKey, hstart, hnoise, hm, hb]
  | collecting =>
    by_cases hb : keyByte k = endByte <;> cases full <;>
      simp [feedRows, feedClass, FeedRow.matchesKey, hstart, hnoise, hend, hcollecting, hm, hb]

end Sys2Proof

namespace Sys2Proof.Machine

/-! ## The fields of an event (R90) -/

/-- The fields give the event back, by the form of the event and, in a delivery, of its sub-command. -/
theorem event_word (e : Event) : e.word.event = some e := by
  cases e with
  | none => rfl
  | error k => simp [Event.word, EventWord.event]
  | received r =>
    obtain ⟨c, sub, data⟩ := r
    cases sub <;> rfl

theorem word_ev_ne_three (e : Event) : e.word.ev ≠ 3 := by
  cases e <;> simp [Event.word]

theorem errorKind_code_bounds (k : ErrorKind) : 1 ≤ k.code.toNat ∧ k.code.toNat ≤ 5 := by
  cases k <;> decide

/-- Settles O40: the form of the event, its error kind, and whether its sub-command is present. -/
theorem eventFieldsGiveTheEvent : Obligations.EventFieldsGiveTheEvent := by
  refine ⟨fun e => ⟨event_word e, word_ev_ne_three e⟩, fun k => ?_, fun r => ?_⟩
  · obtain ⟨hlow, hhigh⟩ := errorKind_code_bounds k
    exact ⟨hlow, hhigh, rfl⟩
  · obtain ⟨c, sub, data⟩ := r
    cases sub <;> rfl

/-! ## The rows of the FEED decode (R92, R120) -/

/-- Every row of the FEED decode is a `runRow` of its class and the byte it consumes. -/
theorem exec_rowInstr {cls : FeedClass} {b c : Byte} {now : Nat} (hc : fedByte (rowInstr cls b now) = some c) (s : State) :
    ∃ effect, exec (rowInstr cls b now) s = runRow cls c now effect s := by
  cases cls <;> cases hc <;>
    simp only [rowInstr, exec, execFeedStart, execFeedNoise, execFeedEnd, execFeedAppend, execFeedOverflow] <;>
    exact ⟨_, rfl⟩

theorem exec_rowInstr_unselected {s : State} {cls : FeedClass} {b c : Byte} {now : Nat}
    (hc : fedByte (rowInstr cls b now) = some c) (h : feedClass s.mode c s.full ≠ cls) :
    exec (rowInstr cls b now) s = .refused .feedRowNotSelected := by
  obtain ⟨effect, hrow⟩ := exec_rowInstr hc s
  rw [hrow, runRow_unselected h]

/-- Settles O15: a row runs only when its class is the selected one, and the premises exclude just that. -/
theorem rowsRunOnlyWhereSelected : Obligations.RowsRunOnlyWhereSelected := by
  intro s b now
  refine ⟨fun h => ?_, fun h => ?_, fun h => ?_, fun h => ?_, fun h => ?_⟩
  · exact exec_rowInstr_unselected (cls := .start) (b := b) rfl fun hc => h (feedClass_start.1 hc).1
  · exact exec_rowInstr_unselected (cls := .noise) rfl fun hc => h (feedClass_noise.1 hc)
  · exact exec_rowInstr_unselected (cls := .frameEnd) (b := b) rfl fun hc => h (feedClass_frameEnd.1 hc).1
  · refine exec_rowInstr_unselected (cls := .append) rfl fun hc => h ?_
    obtain ⟨hm, hne, hroom⟩ := feedClass_append.1 hc
    exact ⟨hm, hne, full_eq_false.1 hroom⟩
  · refine exec_rowInstr_unselected (cls := .overflow) rfl fun hc => h ?_
    obtain ⟨hm, hne, hfull⟩ := feedClass_overflow.1 hc
    exact ⟨hm, hne, full_eq_true.1 hfull⟩

/-- The row that a byte selects consumes that byte: START and END, which carry none, are selected by theirs alone. -/
theorem fedByte_selectedRow (m : Mode) (b : Byte) (full : Bool) (now : Nat) :
    fedByte (rowInstr (feedClass m b full) b now) = some b := by
  cases hc : feedClass m b full with
  | start => rw [(feedClass_start.1 hc).2]; rfl
  | frameEnd => rw [(feedClass_frameEnd.1 hc).2]; rfl
  | noise | append | overflow => rfl

theorem exec_feed_eq_selectedRow (b : Byte) (now : Nat) (s : State) :
    exec (.feed b now) s = exec (rowInstr (feedClass s.mode b s.full) b now) s := by
  rw [exec, execFeed]
  cases feedClass s.mode b s.full <;> rfl

/-- R138: FEED is total. -/
theorem exec_feed_total (b : Byte) (now : Nat) (s : State) : ∃ t, exec (.feed b now) s = .next t := by
  obtain ⟨effect, hrow⟩ := exec_rowInstr (fedByte_selectedRow s.mode b s.full now) s
  exact ⟨_, (exec_feed_eq_selectedRow b now s).trans (hrow.trans (runRow_selected rfl))⟩

/-- Settles O14: the row of the selected class, read off mode, byte and `len`. -/
theorem feedRunsTheSelectedRow : Obligations.FeedRunsTheSelectedRow := by
  intro s b now
  refine ⟨?_, exec_feed_total b now s⟩
  rw [exec_feed_eq_selectedRow]
  congr 1
  cases hm : s.mode with
  | idle =>
    by_cases hb : b = 0x3A
    · rw [feedClass_start.2 ⟨rfl, hb⟩]
      exact (if_pos hb).symm
    · rw [feedClass_noise.2 ⟨rfl, hb⟩]
      exact (if_neg hb).symm
  | collecting =>
    by_cases hb : b = 0x7E
    · rw [feedClass_frameEnd.2 ⟨rfl, hb⟩]
      exact (if_pos hb).symm
    · refine Eq.trans ?_ (if_neg hb).symm
      by_cases hroom : s.len < s.cfg.capacity
      · rw [feedClass_append.2 ⟨rfl, hb, full_eq_false.2 hroom⟩]
        exact (if_pos hroom).symm
      · rw [feedClass_overflow.2 ⟨rfl, hb, full_eq_true.2 (Nat.not_lt.1 hroom)⟩]
        exact (if_neg hroom).symm

/-! ## The frame a body delivers (R87, R132, R181) -/

/-- R127: a body is too short, or it is its data and a checksum byte. -/
theorem short_or_snoc (body : List Byte) : body.length < 5 ∨ ∃ p c, body = p ++ [c] ∧ 4 ≤ p.length := by
  by_cases hshort : body.length < 5
  · exact .inl hshort
  · obtain ⟨p, c, rfl⟩ := snoc_of_length_pos (l := body) (by omega)
    exact .inr ⟨p, c, rfl, by simp at hshort; omega⟩

theorem validate_eq_frameTooShort_iff {body : List Byte} :
    validate body = .error .frameTooShort ↔ body.length < 5 := by
  refine ⟨fun h => ?_, validate_short⟩
  rcases short_or_snoc body with hshort | ⟨p, c, rfl, hlen⟩
  · exact hshort
  · rw [validate_snoc c hlen] at h
    split_ifs at h <;> cases h

theorem validate_eq_checksumMismatch_iff {body : List Byte} :
    validate body = .error .checksumMismatch ↔ ∃ p c, body = p ++ [c] ∧ 4 ≤ p.length ∧ c ≠ checksum p := by
  constructor
  · intro h
    rcases short_or_snoc body with hshort | ⟨p, c, rfl, hlen⟩
    · simp [validate_short hshort] at h
    · rw [validate_snoc c hlen] at h
      split_ifs at h with hsum
      · exact ⟨p, c, rfl, hlen, hsum⟩
      · cases h
  · rintro ⟨p, c, rfl, hlen, hsum⟩
    rw [validate_snoc c hlen, if_pos hsum]

theorem validate_eq_lengthMismatch_iff {body : List Byte} :
    validate body = .error .lengthMismatch ↔
      ∃ p, body = p ++ [checksum p] ∧ 4 ≤ p.length ∧
        256 * (p.getD 2 0).toNat + (p.getD 3 0).toNat ≠ p.length + 3 := by
  constructor
  · intro h
    rcases short_or_snoc body with hshort | ⟨p, c, rfl, hlen⟩
    · simp [validate_short hshort] at h
    · rw [validate_snoc c hlen] at h
      split_ifs at h with hsum hdeclared
      · cases h
      · exact ⟨p, by rw [not_not.1 hsum], hlen, hdeclared⟩
  · rintro ⟨p, rfl, hlen, hdeclared⟩
    rw [validate_snoc _ hlen, if_neg (not_not.2 rfl), if_pos hdeclared]

/-- R87: of the bodies that the buffer can hold, those that validate are the deliverable payloads with their checksum. -/
theorem validate_eq_ok_iff {cfg : Config} {body : List Byte} {r : Received} (hfit : body.length ≤ cfg.capacity)
    (hend : endByte ∉ body) :
    validate body = .ok r ↔ ∃ p, body = p ++ [checksum p] ∧ Deliverable cfg p ∧ r = receivedOf p := by
  constructor
  · intro h
    obtain ⟨p, rfl, hlen, hdeclared, hr⟩ := validate_ok h
    simp only [List.mem_append, List.mem_singleton, not_or] at hend
    exact ⟨p, rfl, ⟨hlen, by simpa using hfit, hend.1, Ne.symm hend.2, hdeclared⟩, hr⟩
  · rintro ⟨p, rfl, ⟨hlen, -, -, -, hdeclared⟩, rfl⟩
    rw [validate_snoc _ hlen, if_neg (not_not.2 rfl), if_neg (not_not.2 hdeclared)]
    rfl

/-! ## Delivered frames stay legal (R87, R90) -/

/-- An effect dispatches nothing new, or the frame of a buffer that validates. -/
theorem Effect.dispatched_same_or_validated {s t : State} {i : Instr} (h : Effect s i t) :
    t.responses.filterMap Response.dispatched = s.responses.filterMap Response.dispatched ∨
      ∃ r, validate s.buffer = .ok r ∧
        t.responses.filterMap Response.dispatched = s.responses.filterMap Response.dispatched ++ [r] := by
  cases h with
  | delivered _ _ _ hv => exact .inr ⟨_, hv, by simp [Response.dispatched]⟩
  | csum | encode | reset | tickNothing | tickTimeout | opened | noise | rejected | appended | overflowed =>
    exact .inl (by simp [Response.dispatched])

theorem Effect.keeps_responsesLegal {s t : State} {i : Instr} (h : Effect s i t) (hinv : s.Inv)
    (hs : s.ResponsesLegal) : t.ResponsesLegal := by
  obtain ⟨hfit, -, hend⟩ := hinv
  rw [State.ResponsesLegal, h.frame.1]
  rcases h.dispatched_same_or_validated with hsame | ⟨r, hv, hsnoc⟩
  · rwa [hsame]
  · obtain ⟨p, -, hp, rfl⟩ := (validate_eq_ok_iff (of_decide_eq_true hfit) hend).1 hv
    rw [hsnoc]
    intro q hq
    rcases List.mem_append.1 hq with hold | hnew
    · exact hs q hold
    · obtain rfl := List.mem_singleton.1 hnew
      exact ⟨hp, rfl⟩

/-- Settles O32: a step changes nothing or has an effect, and the invariants make what an effect delivers deliverable. -/
theorem stepKeepsResponsesLegal : Obligations.StepKeepsResponsesLegal := by
  intro s t hinv hs hstep
  rcases step_effect hstep with ⟨-, rfl⟩ | ⟨p, rest, i, -, -, -, heffect⟩
  · exact hs
  · exact heffect.keeps_responsesLegal hinv hs

/-! ## The judgement at END (R124, R132, R184) -/

/-- The event that FEED of `END` answers for the outcome of validation. -/
def Event.ofVerdict : Except ErrorKind Received → Event
  | .ok r => .received r
  | .error k => .error k

@[simp] theorem Event.ofVerdict_eq_received {v : Except ErrorKind Received} {r : Received} :
    Event.ofVerdict v = .received r ↔ v = .ok r := by
  cases v <;> simp [Event.ofVerdict]

@[simp] theorem Event.ofVerdict_eq_error {v : Except ErrorKind Received} {k : ErrorKind} :
    Event.ofVerdict v = .error k ↔ v = .error k := by
  cases v <;> simp [Event.ofVerdict]

/-- Settles O43: the run of a whole frame ends in the verdict of `validate`, whose four outcomes are characterised above. -/
theorem bodyIsJudgedAtEnd : Obligations.BodyIsJudgedAtEnd := by
  intro s body t d rest hm hend hfit hp
  refine ⟨_, Event.ofVerdict (validate body), run_frame hm hend hfit hp, rfl, rfl, rfl, rfl, rfl, fun r => ?_, ?_, ?_, ?_⟩
  · rw [Event.ofVerdict_eq_received, validate_eq_ok_iff hfit hend]
  · rw [Event.ofVerdict_eq_error, validate_eq_frameTooShort_iff]
  · rw [Event.ofVerdict_eq_error, validate_eq_checksumMismatch_iff]
  · rw [Event.ofVerdict_eq_error, validate_eq_lengthMismatch_iff]

end Sys2Proof.Machine

/-! Proofs of the family 40_checksum.md: CSUM answers the byte sum (R111), the checksum's corner cases and laws (R112,
R113), and CSUM and ENCODE disturb no other operation (R114, R151). -/

namespace Sys2Proof.Machine

/-! ## The checksum (R111 to R113) -/

/-- Settles O1: the fold is the natural-number sum, and the response is all that CSUM adds. -/
theorem csumRespondsWithByteSum : Obligations.CsumRespondsWithByteSum := by
  intro span s
  rw [← checksum_eq_ofNat_sum]
  rfl

theorem checksum_append (s t : List Byte) : checksum (s ++ t) = checksum s + checksum t := by
  rw [checksum, List.foldl_append, checksum_foldl]
  rfl

theorem checksum_singleton (b : Byte) : checksum [b] = b := by
  rw [checksum_cons, checksum_nil, add_zero]

theorem checksum_snoc (s : List Byte) (b : Byte) : checksum (s ++ [b]) = checksum s + b := by
  rw [checksum_append, checksum_singleton]

/-- The sum in the naturals does not look at the order of the bytes. -/
theorem checksum_perm {s t : List Byte} (h : s.Perm t) : checksum s = checksum t := by
  rw [checksum_eq_ofNat_sum, checksum_eq_ofNat_sum, (h.map BitVec.toNat).sum_eq]

/-- Settles O3: every law is one of addition modulo 256, through the checksum of a concatenation. -/
theorem checksumLaws : Obligations.ChecksumLaws := by
  refine ⟨fun _ _ => checksum_perm, checksum_append, checksum_snoc, fun u v w x y d => ?_⟩
  simp only [checksum_append, checksum_singleton]
  ring

/-- Numbers reduced to bytes one by one sum to their sum reduced once. -/
theorem checksum_map_ofNat (l : List Nat) : checksum (l.map (BitVec.ofNat 8)) = BitVec.ofNat 8 l.sum := by
  induction l with
  | nil => rfl
  | cons n l ih => rw [List.map_cons, checksum_cons, ih, List.sum_cons, BitVec.ofNat_add]

/-- Gauss' sum over the list instead of the finite set. -/
theorem sum_listRange (n : Nat) : (List.range n).sum = n * (n - 1) / 2 := by
  rw [← Finset.sum_range_id, ← List.toFinset_range, List.sum_toFinset _ List.nodup_range, List.map_id']

theorem checksum_replicate (n : Nat) (b : Byte) :
    checksum (List.replicate n b) = BitVec.ofNat 8 (n * b.toNat) := by
  rw [checksum_eq_ofNat_sum, List.map_replicate, List.sum_replicate, smul_eq_mul]

/-- Settles O2: the short spans are computed; the two of 256 bytes go through the sum of their values
in the naturals. -/
theorem checksumCornerCases : Obligations.ChecksumCornerCases := by
  refine ⟨checksum_nil, checksum_singleton, by decide, by decide, by decide, fun s => ?_, ?_, ?_⟩
  · rw [checksum_snoc, add_zero]
  · rw [checksum_map_ofNat, sum_listRange]
    rfl
  · rw [checksum_replicate]
    rfl

/-! ## CSUM and ENCODE disturb no other operation (R114, R151) -/

/-- The requests other than CSUM and ENCODE. -/
def engineRequests (ps : List Pending) : List Pending := ps.filter fun p => !p.isPure

theorem engineRequests_cons_of_pure {p : Pending} (h : p.isPure = true) (ps : List Pending) :
    engineRequests (p :: ps) = engineRequests ps :=
  List.filter_cons_of_neg (by simp [h])

theorem engineRequests_cons_of_not_pure {p : Pending} (h : p.isPure = false) (ps : List Pending) :
    engineRequests (p :: ps) = p :: engineRequests ps :=
  List.filter_cons_of_pos (by simp [h])

/-- `u` stands where `s` does, without the CSUM and ENCODE requests still pending in `s` and whatever the responses to
those already taken. -/
structure State.WithoutPure (s u : State) : Prop where
  cfg : u.cfg = s.cfg
  mode : u.mode = s.mode
  buffer : u.buffer = s.buffer
  lastByteTime : u.lastByteTime = s.lastByteTime
  pending : u.pending = engineRequests s.pending
  responses : u.responses.filter Response.ofEngine = s.responses.filter Response.ofEngine

namespace State.WithoutPure

variable {s u t : State}

/-! ### The operations on the state keep the relation -/

theorem setMode (m : Mode) (h : s.WithoutPure u) : (s.setMode m).WithoutPure (u.setMode m) := { h with mode := rfl }

theorem clear (h : s.WithoutPure u) : s.clear.WithoutPure u.clear := { h with buffer := rfl }

theorem stamp (now : Nat) (h : s.WithoutPure u) : (s.stamp now).WithoutPure (u.stamp now) :=
  { h with lastByteTime := rfl }

theorem append (b : Byte) (h : s.WithoutPure u) : (s.append b).WithoutPure (u.append b) :=
  { h with buffer := congrArg (· ++ [b]) h.buffer }

theorem respond (r : Response) (h : s.WithoutPure u) : (s.respond r).WithoutPure (u.respond r) :=
  { h with responses := by simp only [State.respond_responses, List.filter_append, h.responses] }

/-- A response to CSUM or ENCODE is not counted, so one side may give it alone. -/
theorem respond_left {r : Response} (hr : r.ofEngine = false) (h : s.WithoutPure u) : (s.respond r).WithoutPure u :=
  { h with responses := by simp [h.responses, hr] }

theorem toIdle (h : s.WithoutPure u) : s.toIdle.WithoutPure u.toIdle := (h.setMode .idle).clear

theorem raise (k : ErrorKind) (h : s.WithoutPure u) : (s.raise k).WithoutPure (u.raise k) := h.toIdle.respond _

theorem deliver (r : Received) (h : s.WithoutPure u) : (s.deliver r).WithoutPure (u.deliver r) := h.toIdle.respond _

/-! ### The conditions that operations test are the same on both sides -/

theorem full (h : s.WithoutPure u) : u.full = s.full := by
  rw [State.full, State.full, State.len, State.len, h.buffer, h.cfg]

theorem inFlight (h : s.WithoutPure u) : u.inFlight = s.inFlight := by
  rw [State.inFlight, State.inFlight, State.len, State.len, h.mode, h.buffer]

theorem clockBehind (now : Nat) (h : s.WithoutPure u) : u.clockBehind now = s.clockBehind now := by
  simp only [State.clockBehind, h.lastByteTime]

theorem stalled (now : Nat) (h : s.WithoutPure u) : u.stalled now = s.stalled now := by
  simp only [State.stalled, h.lastByteTime, h.cfg]

/-! ### An operation keeps the relation -/

/-- A row is selected on both sides or on neither. -/
theorem runRow {cls : FeedClass} {b : Byte} {now : Nat} {effect : State → State}
    (heffect : ∀ {s u : State}, s.WithoutPure u → (effect s).WithoutPure (effect u))
    (h : s.WithoutPure u) (ht : runRow cls b now effect s = .next t) :
    ∃ v, Machine.runRow cls b now effect u = .next v ∧ t.WithoutPure v := by
  obtain ⟨hcls, rfl⟩ := runRow_next ht
  rw [← h.mode, ← h.full] at hcls
  exact ⟨_, runRow_selected hcls, heffect (h.stamp now)⟩

/-- Both sides hold the same body, so validation answers the same of it. -/
theorem execFeedEnd (now : Nat) (h : s.WithoutPure u) (ht : execFeedEnd now s = .next t) :
    ∃ v, Machine.execFeedEnd now u = .next v ∧ t.WithoutPure v := by
  refine runRow (fun {s u} h => ?_) h ht
  rw [h.buffer]
  cases validate s.buffer with
  | ok r => exact h.deliver r
  | error k => exact h.raise k

theorem exec_rowInstr (cls : FeedClass) (b : Byte) (now : Nat) (h : s.WithoutPure u)
    (ht : exec (rowInstr cls b now) s = .next t) :
    ∃ v, exec (rowInstr cls b now) u = .next v ∧ t.WithoutPure v := by
  cases cls with
  | start => exact runRow (fun h => ((h.setMode .collecting).clear).respond _) h ht
  | noise => exact runRow (fun h => h.respond _) h ht
  | append => exact runRow (fun h => (h.append b).respond _) h ht
  | overflow => exact runRow (fun h => h.raise _) h ht
  | frameEnd => exact h.execFeedEnd now ht

theorem execTick (now : Nat) (h : s.WithoutPure u) (ht : execTick now s = .next t) :
    ∃ v, Machine.execTick now u = .next v ∧ t.WithoutPure v := by
  unfold Machine.execTick at ht ⊢
  rw [h.inFlight, h.clockBehind, h.stalled]
  split_ifs at ht ⊢ <;> cases ht
  · exact ⟨_, rfl, h.raise _⟩
  · exact ⟨_, rfl, h.respond _⟩
  · exact ⟨_, rfl, h.respond _⟩

theorem exec (i : Instr) (h : s.WithoutPure u) (ht : exec i s = .next t) :
    ∃ v, Machine.exec i u = .next v ∧ t.WithoutPure v := by
  cases i with
  | csum span => cases ht; exact ⟨_, rfl, h.respond _⟩
  | encode p => cases ht; exact ⟨_, rfl, h.respond _⟩
  | reset => cases ht; exact ⟨_, rfl, h.toIdle.respond _⟩
  | tick now => exact h.execTick now ht
  | feed b now =>
    rw [exec_feed_eq_selectedRow] at ht ⊢
    rw [h.mode, h.full]
    exact h.exec_rowInstr _ b now ht
  | feedStart now => exact h.exec_rowInstr .start 0 now ht
  | feedNoise b now => exact h.exec_rowInstr .noise b now ht
  | feedEnd now => exact h.exec_rowInstr .frameEnd 0 now ht
  | feedAppend b now => exact h.exec_rowInstr .append b now ht
  | feedOverflow b now => exact h.exec_rowInstr .overflow b now ht

end State.WithoutPure

/-- An operation that does not touch the engine adds a response that is not the engine's, and nothing else. -/
theorem exec_of_not_touchesEngine {i : Instr} {s t : State} (hi : touchesEngine i = false) (h : exec i s = .next t) :
    ∃ r, r.ofEngine = false ∧ t = s.respond r := by
  cases i with
  | csum span => cases h; exact ⟨_, rfl, rfl⟩
  | encode p => cases h; exact ⟨_, rfl, rfl⟩
  | feed | tick | reset | feedStart | feedNoise | feedEnd | feedAppend | feedOverflow => cases hi

/-- A step that takes a request is the `exec` of the operation it decodes to, which its issue does not refuse. -/
theorem exec_of_step_cons {s t : State} {p : Pending} {rest : List Pending} (hp : s.pending = p :: rest)
    (h : step s = .next t) :
    ∃ i, decodeRequest p.request = .instr i ∧ issueRefusal p.issue i = none ∧
      exec i { s with pending := rest } = .next t := by
  rcases step_effect h with ⟨hnil, -⟩ | ⟨q, qs, i, hq, hd, hi, -⟩
  · cases hp.symm.trans hnil
  · cases hp.symm.trans hq
    exact ⟨i, hd, hi, (step_of_issueRefusal_none hp hd hi).symm.trans h⟩

namespace State.WithoutPure

variable {s u t : State} {p : Pending} {rest : List Pending}

/-- The step of a CSUM or ENCODE leads to a state that stands where `u` still does. -/
theorem step_pure (h : s.WithoutPure u) (hp : s.pending = p :: rest) (hpure : p.isPure = true)
    (ht : step s = .next t) : t.WithoutPure u := by
  obtain ⟨i, hd, -, hexec⟩ := exec_of_step_cons hp ht
  have htouches : touchesEngine i = false := by rw [touchesEngine_of_decode hd, hpure]; rfl
  obtain ⟨r, hr, rfl⟩ := exec_of_not_touchesEngine htouches hexec
  have hrest : u.pending = engineRequests rest := by rw [h.pending, hp, engineRequests_cons_of_pure hpure]
  exact respond_left hr { h with pending := hrest }

/-- The step of any other request is a step of `u` too. -/
theorem step_engine (h : s.WithoutPure u) (hp : s.pending = p :: rest) (hpure : p.isPure = false)
    (ht : step s = .next t) : ∃ v, step u = .next v ∧ t.WithoutPure v := by
  obtain ⟨i, hd, hi, hexec⟩ := exec_of_step_cons hp ht
  have hup : u.pending = p :: engineRequests rest := by rw [h.pending, hp, engineRequests_cons_of_not_pure hpure]
  have hrest : State.WithoutPure { s with pending := rest } { u with pending := engineRequests rest } :=
    { h with pending := rfl }
  rw [step_of_issueRefusal_none hup hd hi]
  exact hrest.exec i hexec

/-- The simulation: each step of `s` is a step of `u` or none. -/
theorem run {ps : List Pending} (h : s.WithoutPure u) (hp : s.pending = ps) (ht : RunsTo ps.length s t) :
    ∃ v, RunsTo (engineRequests ps).length u v ∧ t.WithoutPure v := by
  induction ps generalizing s u with
  | nil =>
    cases ht
    exact ⟨u, .refl u, h⟩
  | cons p rest ih =>
    obtain ⟨w, hstep, hrun⟩ := RunsTo.uncons ht
    obtain ⟨i, -, heffect⟩ := step_effect_of_cons hp hstep
    have hw : w.pending = rest := heffect.frame.2
    cases hpure : p.isPure with
    | true =>
      rw [engineRequests_cons_of_pure hpure]
      exact ih (h.step_pure hp hpure hstep) hw hrun
    | false =>
      obtain ⟨v, hv, hwv⟩ := h.step_engine hp hpure hstep
      obtain ⟨x, hx, htx⟩ := ih hwv hw hrun
      rw [engineRequests_cons_of_not_pure hpure]
      exact ⟨x, .cons hv hx, htx⟩

end State.WithoutPure

/-- Settles O48: the simulation from a state and the same state without its CSUM and ENCODE requests. -/
theorem pureOperationsDoNotDisturb : Obligations.PureOperationsDoNotDisturb := by
  intro s t ht
  have hstart : s.WithoutPure { s with pending := engineRequests s.pending } := ⟨rfl, rfl, rfl, rfl, rfl, rfl⟩
  obtain ⟨u, hu, h⟩ := hstart.run rfl ht
  exact ⟨u, hu, h.mode, h.buffer, h.lastByteTime, h.cfg, h.responses⟩

end Sys2Proof.Machine

/-! Proofs of the family 41_frame_parser.md: the effect of each row of the FEED decode (R121 to R126), the judgement at `END`
(R127 to R135), the events a FEED answers (R137), and the sequences of R126, R139 and R140. -/

namespace Sys2Proof.Machine

/-! ## The rows of the FEED decode, where they are selected (R122 to R126) -/

theorem exec_feed_of_class {s : State} {b : Byte} {cls : FeedClass} (h : feedClass s.mode b s.full = cls) (now : Nat) :
    exec (.feed b now) s = exec (rowInstr cls b now) s :=
  h ▸ exec_feed_eq_selectedRow b now s

/-- Settles O5: the row FEED.START is selected. -/
theorem feedStartOpensFrame : Obligations.FeedStartOpensFrame := by
  intro s now hm
  rw [exec, execFeedStart, runRow_selected (feedClass_start.2 ⟨hm, rfl⟩)]
  rfl

/-- Settles O6: the row FEED.NOISE is selected. -/
theorem feedNoiseIsDiscarded : Obligations.FeedNoiseIsDiscarded :=
  fun _ _ _ hm hb => runRow_selected (feedClass_noise.2 ⟨hm, hb⟩)

theorem exec_feedAppend {s : State} {b : Byte} (now : Nat) (hm : s.mode = .collecting) (hb : b ≠ endByte)
    (hroom : s.len < s.cfg.capacity) :
    exec (.feedAppend b now) s = .next (((s.stamp now).append b).respond (.event .none)) := by
  rw [exec, execFeedAppend, runRow_selected (feedClass_append.2 ⟨hm, hb, full_eq_false.2 hroom⟩)]

/-- Settles O7: the two reads after an append, at `len` and elsewhere. -/
theorem feedAppendStoresAtLen : Obligations.FeedAppendStoresAtLen := by
  intro s b now hm hb hroom
  exact ⟨_, exec_feedAppend now hm hb hroom, rfl, List.length_append, memRead_append_self b s,
    fun _ hj => memRead_append_of_ne b s hj⟩

/-- Settles O8: the row FEED.OVERFLOW is selected. -/
theorem feedOverflowDropsFrame : Obligations.FeedOverflowDropsFrame :=
  fun _ _ _ hm hb hfull => runRow_selected (feedClass_overflow.2 ⟨hm, hb, full_eq_true.2 hfull⟩)

/-- R124, R135: FEED.END answers the verdict on the buffer and leaves nothing else of the frame. -/
theorem exec_feedEnd {s : State} (now : Nat) (hm : s.mode = .collecting) :
    exec (.feedEnd now) s = .next { s with mode := .idle, buffer := [], lastByteTime := now,
                                           responses := s.responses ++ [.event (.ofVerdict (validate s.buffer))] } := by
  rw [exec, execFeedEnd, runRow_selected (feedClass_frameEnd.2 ⟨hm, rfl⟩), State.stamp_buffer]
  cases validate s.buffer <;> rfl

/-! ## The judgement at `END` (R127 to R135) -/

/-- Settles O9: the verdict on a short body. -/
theorem shortBodyIsTooShort : Obligations.ShortBodyIsTooShort := by
  intro s now hm hshort
  have hverdict := validate_eq_frameTooShort_iff.2 hshort
  exact ⟨_, exec_feedEnd now hm, rfl, rfl, rfl, rfl, by rw [hverdict]; rfl⟩

/-- Settles O10: the verdicts on a body that fails the checksum, and on one that fails the length alone. -/
theorem failedChecksReportInOrder : Obligations.FailedChecksReportInOrder := by
  intro s now data c hm hbuffer hlen
  rw [← checksum_eq_ofNat_sum, exec_feedEnd now hm, hbuffer]
  refine ⟨fun hsum => ?_, fun hsum hdeclared => ?_⟩
  · rw [validate_eq_checksumMismatch_iff.2 ⟨data, c, rfl, hlen, hsum⟩]
    rfl
  · rw [validate_eq_lengthMismatch_iff.2 ⟨data, by rw [hsum], hlen, hdeclared⟩]
    rfl

/-- R132, R133: a body that passes every check is received as its data. -/
theorem validate_snoc_checksum {data : List Byte} (hlen : 4 ≤ data.length)
    (hdeclared : 256 * (data.getD 2 0).toNat + (data.getD 3 0).toNat = data.length + 3) :
    validate (data ++ [checksum data]) = .ok (receivedOf data) := by
  rw [validate_snoc _ hlen, if_neg (not_not.2 rfl), if_neg (not_not.2 hdeclared)]
  rfl

theorem getElem?_eq_some_getD {p : List Byte} {i : Nat} (h : i < p.length) : p[i]? = some (p.getD i 0) := by
  rw [List.getElem?_eq_getElem h, List.getD_eq_getElem p 0 h]

/-- The command of a payload is its byte at offset 1 (R133). -/
theorem getElem?_one_eq_command {p : List Byte} (h : 4 ≤ p.length) : p[1]? = some (receivedOf p).command :=
  getElem?_eq_some_getD (by omega)

theorem receivedOf_subcommand {p : List Byte} (h : 6 ≤ p.length) : (receivedOf p).subcommand = p[5]? :=
  (if_pos h).trans (getElem?_eq_some_getD (by omega)).symm

theorem receivedOf_subcommand_eq_none {p : List Byte} (h : p.length < 6) : (receivedOf p).subcommand = none :=
  if_neg (Nat.not_le.2 h)

/-- Settles O11: the verdict on a valid body, and the fields of what it delivers. -/
theorem validFrameIsDelivered : Obligations.ValidFrameIsDelivered := by
  intro s now data c hm hbuffer hlen hsum hdeclared
  rw [← checksum_eq_ofNat_sum] at hsum
  have hverdict : validate s.buffer = .ok (receivedOf data) := by
    rw [hbuffer, hsum, validate_snoc_checksum hlen hdeclared]
  exact ⟨_, receivedOf data, exec_feedEnd now hm, rfl, rfl, rfl, rfl, by rw [hverdict]; rfl,
    getElem?_one_eq_command hlen, rfl, receivedOf_subcommand, receivedOf_subcommand_eq_none, rfl, rfl⟩

theorem Event.ofVerdict_ne_none (v : Except ErrorKind Received) : Event.ofVerdict v ≠ .none := by
  cases v <;> nofun

/-- Settles O12: the state after `END` depends on the body through the verdict alone, which is in the responses. -/
theorem endAlwaysReturnsToIdle : Obligations.EndAlwaysReturnsToIdle := by
  intro s now hm
  have hend := exec_feedEnd now hm
  refine ⟨_, _, hend, (exec_feed_of_class (feedClass_frameEnd.2 ⟨hm, rfl⟩) now).trans hend, rfl, rfl, rfl, rfl, rfl,
    Event.ofVerdict_ne_none _, fun body u hu => ?_⟩
  cases (exec_feedEnd (s := { s with buffer := body }) now hm).symm.trans hu
  rfl

/-- R133, R187: the dispatch layer reads a delivery, and nothing else. -/
theorem dispatched_event_eq_some {e : Event} {r : Received} :
    Response.dispatched (.event e) = some r ↔ e = .received r := by
  cases e <;> simp [Response.dispatched]

/-- R182, R187: the logging collaborator reads the kind of an error, and nothing else. -/
theorem logged_event_eq_some {e : Event} {k : ErrorKind} : Response.logged (.event e) = some k ↔ e = .error k := by
  cases e <;> simp [Response.logged]

/-- R134: the raw-bytes output is the data of what is dispatched. -/
theorem rawBytes_event (e : Event) :
    (Response.dispatched (.event e)).map Received.data = Response.rawBytes (.event e) := by
  cases e <;> rfl

/-- Settles O41: what each of the three consumers reads of an event. -/
theorem consumersOfAnEvent : Obligations.ConsumersOfAnEvent :=
  fun e => ⟨rawBytes_event e, fun _ => dispatched_event_eq_some, fun _ => logged_event_eq_some⟩

/-! ## FEED as a whole (R136, R137) -/

/-- Settles O13: `START` is not `END`, so in `Collecting` it selects FEED.APPEND or FEED.OVERFLOW. -/
theorem startInsideFrameIsData : Obligations.StartInsideFrameIsData := by
  intro s now hm
  have hne : (0x3A : Byte) ≠ endByte := by decide
  by_cases hroom : s.len < s.cfg.capacity
  · have hrow := exec_feed_of_class (feedClass_append.2 ⟨hm, hne, full_eq_false.2 hroom⟩) now
    exact ⟨_, hrow.trans (exec_feedAppend now hm hne hroom), rfl, rfl, fun _ => ⟨hm, rfl, rfl⟩,
      fun hfull => absurd hfull hroom.ne⟩
  · have hfull := Nat.not_lt.1 hroom
    have hrow := exec_feed_of_class (feedClass_overflow.2 ⟨hm, hne, full_eq_true.2 hfull⟩) now
    exact ⟨_, hrow.trans (feedOverflowDropsFrame s _ now hm hne hfull), rfl, rfl, fun h => absurd h hroom,
      fun _ => ⟨rfl, rfl, rfl⟩⟩

/-- R137: the event that FEED of a byte answers, by the row that runs. -/
def State.feedEvent (b : Byte) (s : State) : Event :=
  match feedClass s.mode b s.full with
  | .start | .noise | .append => .none
  | .frameEnd => .ofVerdict (validate s.buffer)
  | .overflow => .error .bufferOverflow

/-- `feedEvent` is what FEED answers. -/
theorem exec_feed_event (b : Byte) (now : Nat) (s : State) :
    ∃ t, exec (.feed b now) s = .next t ∧ t.responses = s.responses ++ [.event (s.feedEvent b)] := by
  rw [exec_feed_eq_selectedRow, State.feedEvent]
  cases hc : feedClass s.mode b s.full with
  | start => exact ⟨_, feedStartOpensFrame s now (feedClass_start.1 hc).1, rfl⟩
  | noise =>
    obtain ⟨hm, hb⟩ := feedClass_noise.1 hc
    exact ⟨_, feedNoiseIsDiscarded s b now hm hb, rfl⟩
  | frameEnd => exact ⟨_, exec_feedEnd now (feedClass_frameEnd.1 hc).1, rfl⟩
  | append =>
    obtain ⟨hm, hb, hroom⟩ := feedClass_append.1 hc
    exact ⟨_, exec_feedAppend now hm hb (full_eq_false.1 hroom), rfl⟩
  | overflow =>
    obtain ⟨hm, hb, hfull⟩ := feedClass_overflow.1 hc
    exact ⟨_, feedOverflowDropsFrame s b now hm hb (full_eq_true.1 hfull), rfl⟩

theorem feedEvent_of_idle {s : State} (b : Byte) (hm : s.mode = .idle) : s.feedEvent b = .none := by
  by_cases hb : b = startByte
  · rw [State.feedEvent, feedClass_start.2 ⟨hm, hb⟩]
  · rw [State.feedEvent, feedClass_noise.2 ⟨hm, hb⟩]

theorem feedEvent_of_room {s : State} {b : Byte} (hm : s.mode = .collecting) (hb : b ≠ endByte)
    (hroom : s.len < s.cfg.capacity) : s.feedEvent b = .none := by
  rw [State.feedEvent, feedClass_append.2 ⟨hm, hb, full_eq_false.2 hroom⟩]

theorem feedEvent_of_full {s : State} {b : Byte} (hm : s.mode = .collecting) (hb : b ≠ endByte)
    (hfull : s.cfg.capacity ≤ s.len) : s.feedEvent b = .error .bufferOverflow := by
  rw [State.feedEvent, feedClass_overflow.2 ⟨hm, hb, full_eq_true.2 hfull⟩]

theorem feedEvent_of_end {s : State} {b : Byte} (hm : s.mode = .collecting) (hb : b = endByte) :
    s.feedEvent b = .ofVerdict (validate s.buffer) := by
  rw [State.feedEvent, feedClass_frameEnd.2 ⟨hm, hb⟩]

theorem feedEvent_ne_timeout (b : Byte) (s : State) : s.feedEvent b ≠ .error .timeout := by
  rw [State.feedEvent]
  cases feedClass s.mode b s.full with
  | start | noise | append | overflow => nofun
  | frameEnd => exact fun h => validate_error_ne_timeout (Event.ofVerdict_eq_error.1 h) rfl

/-- R181: the four forms of a verdict. -/
theorem ofVerdict_validate_cases (body : List Byte) :
    (∃ r, Event.ofVerdict (validate body) = .received r) ∨
      Event.ofVerdict (validate body) = .error .frameTooShort ∨
      Event.ofVerdict (validate body) = .error .checksumMismatch ∨
      Event.ofVerdict (validate body) = .error .lengthMismatch := by
  cases hv : validate body with
  | ok r => exact .inl ⟨r, rfl⟩
  | error k => rcases validate_error hv with rfl | rfl | rfl <;> simp [Event.ofVerdict]

/-- Settles O16: the event of the row that runs, row by row. -/
theorem feedEventsByRow : Obligations.FeedEventsByRow := by
  intro s b now
  obtain ⟨t, hnext, hresponses⟩ := exec_feed_event b now s
  refine ⟨t, s.feedEvent b, hnext, hresponses, feedEvent_of_idle b, feedEvent_of_room, feedEvent_of_full,
    fun hm hb => ?_, feedEvent_ne_timeout b s⟩
  rw [feedEvent_of_end hm hb]
  exact ofVerdict_validate_cases s.buffer

/-! ## The stamp (R121) -/

theorem Effect.lastByteTime_eq {s t : State} {i : Instr} (h : Effect s i t) :
    t.lastByteTime = (fedTime i).getD s.lastByteTime := by
  cases h with
  | csum | encode | reset | tickNothing | tickTimeout => rfl
  | opened _ hn | noise _ hn | delivered _ hn | rejected _ hn | appended _ hn | overflowed _ hn => rw [hn]; rfl

/-- Settles O17: every effect of a fed byte stamps, and no other does. -/
theorem onlyFeedStampsTime : Obligations.OnlyFeedStampsTime :=
  fun _ _ _ h => (exec_effect h).lastByteTime_eq

/-! ## Overflow after `START` (R126) -/

/-- A byte other than `END` fed in `Collecting` with a full buffer drops the frame. -/
theorem run_overflow_byte {s : State} {b : Byte} {t : Nat} {rest : List Pending} (hm : s.mode = .collecting)
    (hb : b ≠ endByte) (hfull : s.cfg.capacity ≤ s.len) (hp : s.pending = feedReq b t :: rest) :
    RunsTo 1 s { s with mode := .idle, buffer := [], lastByteTime := t, pending := rest,
                        responses := s.responses ++ [.event (.error .bufferOverflow)] } := by
  refine .one ?_
  rw [step_feedReq hp]
  exact (exec_feed_of_class (s := { s with pending := rest })
    (feedClass_overflow.2 ⟨hm, hb, full_eq_true.2 hfull⟩) t).trans (feedOverflowDropsFrame _ b t hm hb hfull)

/-- From `Collecting`, the bytes other than `END` that fill the buffer and one more drop the frame, once. -/
theorem run_collect_overflow {s : State} {w : List Byte} {t d : Nat} {rest : List Pending}
    (hm : s.mode = .collecting) (hend : endByte ∉ w) (hw : s.len + w.length = s.cfg.capacity + 1)
    (hfit : s.len ≤ s.cfg.capacity) (hp : s.pending = feedSeq w t d ++ rest) :
    RunsTo w.length s { s with
      mode := .idle
      buffer := []
      lastByteTime := t + (w.length - 1) * d
      pending := rest
      responses := s.responses ++ List.replicate (w.length - 1) (.event .none) ++
        [.event (.error .bufferOverflow)] } := by
  obtain ⟨v, b, rfl⟩ := snoc_of_length_pos (l := w) (by omega)
  simp only [List.mem_append, List.mem_singleton, not_or] at hend
  simp only [List.length_append, List.length_singleton] at hw
  have hcollect := run_collect v s t d (feedReq b (t + v.length * d) :: rest) hm hend.1
    (by rw [State.len] at hw; omega) (by rw [hp, feedSeq_append]; simp [feedSeq])
  have hrun := hcollect.trans (run_overflow_byte hm (Ne.symm hend.2)
    (by simp only [State.len, List.length_append] at hw ⊢; omega) rfl)
  simpa using hrun

/-- Settles O45: `START` opens an empty frame, and the `C + 1` bytes overflow it. -/
theorem overflowAtCapacityPlusOne : Obligations.OverflowAtCapacityPlusOne := by
  intro s w t d rest hm hend hlen hp
  have hopen := run_start (rest := feedSeq w (t + d) d ++ rest) hm hp
  have hdrop := run_collect_overflow (s := { s with
    mode := .collecting, buffer := [], lastByteTime := t, pending := feedSeq w (t + d) d ++ rest,
    responses := s.responses ++ [.event .none] }) rfl hend (by simpa [State.len] using hlen) (Nat.zero_le _) rfl
  have hrun := hopen.trans hdrop
  rw [hlen, Nat.add_comm] at hrun
  exact ⟨_, hrun, rfl, rfl, rfl, by simp [List.replicate_succ]⟩

/-! ## Frames back to back (R139) -/

/-- From `s` to `u` the responses given deliver the frames `rs`, in this order, and report no error. -/
def Delivers (s u : State) (rs : List Received) : Prop :=
  ∃ given, u.responses = s.responses ++ given ∧ given.filterMap Response.dispatched = rs ∧
    given.filterMap Response.logged = []

theorem Delivers.refl (s : State) : Delivers s s [] := ⟨[], by simp, rfl, rfl⟩

theorem Delivers.trans {s u v : State} {rs qs : List Received} (h : Delivers s u rs) (h' : Delivers u v qs) :
    Delivers s v (rs ++ qs) := by
  obtain ⟨given, hresponses, rfl, hlogged⟩ := h
  obtain ⟨given', hresponses', rfl, hlogged'⟩ := h'
  exact ⟨given ++ given', by rw [hresponses', hresponses, List.append_assoc], by simp, by simp [hlogged, hlogged']⟩

/-- Events `None` deliver nothing, and report nothing. -/
theorem Delivers.nones {s u : State} {n : Nat} (h : u.responses = s.responses ++ List.replicate n (.event .none)) :
    Delivers s u [] :=
  ⟨_, h, by simp [Response.dispatched], by simp [Response.logged]⟩

/-- One `Received` after events `None` delivers its frame. -/
theorem Delivers.received {s u : State} {n : Nat} {r : Received}
    (h : u.responses = s.responses ++ List.replicate n (.event .none) ++ [.event (.received r)]) : Delivers s u [r] :=
  ⟨_, h.trans (List.append_assoc ..), by simp [Response.dispatched], by simp [Response.logged]⟩

/-- The frame of a deliverable payload, fed in `Idle`, delivers it and leaves `Idle`. -/
theorem run_deliverable {s : State} {p : List Byte} {t d : Nat} {rest : List Pending} (hm : s.mode = .idle)
    (hp : Deliverable s.cfg p) (hpending : s.pending = feedSeq (frameBytes p) t d ++ rest) :
    ∃ u, RunsTo (frameBytes p).length s u ∧ u.mode = .idle ∧ u.cfg = s.cfg ∧ u.pending = rest ∧
      Delivers s u [receivedOf p] := by
  obtain ⟨hlen, hfit, hend, hsum, hdeclared⟩ := hp
  have hbytes : frameBytes p = [startByte] ++ (p ++ [checksum p]) ++ [endByte] := by simp [frameBytes]
  have hrun := run_frame (body := p ++ [checksum p]) hm (by simp [hend, Ne.symm hsum]) (by simpa using hfit)
    (hbytes ▸ hpending)
  rw [validate_snoc_checksum hlen hdeclared] at hrun
  have hlength : (frameBytes p).length = (p ++ [checksum p]).length + 2 := by simp [frameBytes]
  rw [← hlength] at hrun
  exact ⟨_, hrun, rfl, rfl, rfl, .received rfl⟩

/-- A frame with the noise before it: the bytes that one round of R139 feeds. -/
def noisyFrame (f : List Byte × List Byte) : List Byte := f.1 ++ frameBytes f.2

theorem run_noisyFrame {s : State} {f : List Byte × List Byte} {t d : Nat} {rest : List Pending} (hm : s.mode = .idle)
    (hnoise : startByte ∉ f.1) (hp : Deliverable s.cfg f.2) (hpending : s.pending = feedSeq (noisyFrame f) t d ++ rest) :
    ∃ u, RunsTo (noisyFrame f).length s u ∧ u.mode = .idle ∧ u.cfg = s.cfg ∧ u.pending = rest ∧
      Delivers s u [receivedOf f.2] := by
  rw [noisyFrame, feedSeq_append, List.append_assoc] at hpending
  obtain ⟨stamp, hskip⟩ := run_noise f.1 s t d _ hm hnoise hpending
  obtain ⟨u, hframe, hidle, hcfg, hrest, hdelivers⟩ := run_deliverable (s := { s with
    lastByteTime := stamp
    pending := feedSeq (frameBytes f.2) (t + f.1.length * d) d ++ rest
    responses := s.responses ++ List.replicate f.1.length (.event .none) }) hm hp rfl
  refine ⟨u, ?_, hidle, hcfg, hrest, Delivers.trans (.nones rfl) hdelivers⟩
  rw [noisyFrame, List.length_append]
  exact hskip.trans hframe

/-- R139 by induction over the frames: each round starts and ends in `Idle` with the same configuration. -/
theorem run_noisyFrames (frames : List (List Byte × List Byte)) {s : State} {t d : Nat} {rest : List Pending}
    (hm : s.mode = .idle) (hframes : ∀ f ∈ frames, startByte ∉ f.1 ∧ Deliverable s.cfg f.2)
    (hp : s.pending = feedSeq (frames.flatMap noisyFrame) t d ++ rest) :
    ∃ u, RunsTo (frames.flatMap noisyFrame).length s u ∧ u.mode = .idle ∧ u.pending = rest ∧
      Delivers s u (frames.map fun f => receivedOf f.2) := by
  induction frames generalizing s t with
  | nil => exact ⟨s, .refl s, hm, hp, .refl s⟩
  | cons f frames ih =>
    obtain ⟨⟨hnoise, hdeliverable⟩, hframes⟩ := List.forall_mem_cons.1 hframes
    rw [List.flatMap_cons, feedSeq_append, List.append_assoc] at hp
    obtain ⟨v, hfirst, hidle, hcfg, hpending, hdelivers⟩ := run_noisyFrame hm hnoise hdeliverable hp
    obtain ⟨u, hlater, hidle', hrest, hdelivers'⟩ := ih hidle (hcfg ▸ hframes) hpending
    refine ⟨u, ?_, hidle', hrest, hdelivers.trans hdelivers'⟩
    rw [List.flatMap_cons, List.length_append]
    exact hfirst.trans hlater

/-- Settles O46: the run of all the frames, one after another. -/
theorem framesBackToBack : Obligations.FramesBackToBack := by
  intro frames s t d rest hm hframes hp
  obtain ⟨u, hrun, hidle, hpending, given, hgiven⟩ := run_noisyFrames frames hm hframes hp
  exact ⟨u, given, hrun, hidle, hpending, hgiven⟩

/-! ## A late byte (R140) -/

/-- R161 (3): a TICK within the timeout of the stamp answers `None`. -/
theorem execTick_of_within {s : State} {now : Nat} (hle : s.lastByteTime ≤ now)
    (hin : now - s.lastByteTime ≤ s.cfg.timeoutMs) : execTick now s = .next (s.respond (.event .none)) := by
  rw [execTick, if_neg (mt clockBehind_eq_true.1 (Nat.not_lt.2 hle)), if_neg (mt stalled_eq_true.1 (Nat.not_lt.2 hin)),
    ite_self]

/-- Settles O56: the append stamps the byte's time, from which the TICK measures. -/
theorem lateByteRestartsTheMeasurement : Obligations.LateByteRestartsTheMeasurement := by
  intro s b t now rest hm hb hroom hle hin hp
  have happend := run_collect [b] s t 0 (tickReq now :: rest) hm (mt List.mem_singleton.1 (Ne.symm hb)) hroom hp
  have htick := RunsTo.one ((step_tickReq (s := { s with
    buffer := s.buffer ++ [b]
    lastByteTime := t
    pending := tickReq now :: rest
    responses := s.responses ++ [.event .none] }) rfl).trans (execTick_of_within hle hin))
  simpa [State.respond] using happend.trans htick

end Sys2Proof.Machine

/-! Proofs of the family 42_encode.md: what ENCODE answers (R150, R152), and what the bytes it answers give when they are fed
back: the round trip (R153) and its failing sides (R154). -/

namespace Sys2Proof.Machine

/-- Settles O4: the response is the payload's frame, whose checksum is the natural-number sum. -/
theorem encodeFramesAnyPayload : Obligations.EncodeFramesAnyPayload := by
  intro p s
  rw [← checksum_eq_ofNat_sum]
  rfl

/-! ## A frame fed back whole (R153, R154) -/

/-- The bytes of ENCODE are a frame as the parser sees it: `START`, the payload with its checksum as the body, `END`. -/
theorem encodeFrame_eq_body (p : List Byte) :
    encodeFrame p = [startByte] ++ (p ++ [checksum p]) ++ [endByte] := by
  simp [encodeFrame]

theorem endByte_notMem_body {p : List Byte} (hend : endByte ∉ p) (hsum : checksum p ≠ endByte) :
    endByte ∉ p ++ [checksum p] := by
  simp [hend, Ne.symm hsum]

/-- The frame of a payload whose body fits the buffer and holds no `END` is judged at its own `END`. -/
theorem run_encoded {s : State} {p : List Byte} {t d : Nat} {rest : List Pending} (hm : s.mode = .idle)
    (hend : endByte ∉ p) (hsum : checksum p ≠ endByte) (hfit : p.length + 1 ≤ s.cfg.capacity)
    (hp : s.pending = sendSeq p t d ++ rest) :
    RunsTo (p.length + 3) s { s with
      mode := .idle
      buffer := []
      lastByteTime := t + (p.length + 2) * d
      pending := rest
      responses := s.responses ++ List.replicate (p.length + 2) (.event .none) ++
        [.event (.ofVerdict (validate (p ++ [checksum p])))] } := by
  have hlength : (p ++ [checksum p]).length = p.length + 1 := List.length_append
  rw [sendSeq, encodeFrame_eq_body] at hp
  have hrun := run_frame hm (endByte_notMem_body hend hsum) (hlength ▸ hfit) hp
  rw [hlength] at hrun
  exact hrun

/-- Settles O42: the verdict on a deliverable payload and its checksum is that payload's `Received`. -/
theorem encodedFrameIsReceivedBack : Obligations.EncodedFrameIsReceivedBack := by
  intro s p t d rest hm ⟨hlen, hfit, hend, hsum, hdeclared⟩ hp
  have hrun := run_encoded hm hend hsum hfit hp
  rw [validate_snoc_checksum hlen hdeclared, ← hm] at hrun
  exact hrun

/-! ## A frame cut off before its own `END` (R154) -/

/-- Of the requests that feed `u`, those that feed its first bytes `v` come first, and the others are left
when they are taken. -/
theorem feedSeq_prefix_append_drop {v u : List Byte} {t d : Nat} {ps rest : List Pending} (hv : v <+: u)
    (hp : ps = feedSeq u t d ++ rest) : ps = feedSeq v t d ++ ps.drop v.length := by
  obtain ⟨w, rfl⟩ := hv
  rw [hp, feedSeq_append, List.append_assoc, List.drop_left' (feedSeq_length v t d)]

/-- A body longer than the buffer overflows it at its byte `C + 1`; what is left of the frame stays pending. -/
theorem run_encoded_overflow {s : State} {p : List Byte} {t d : Nat} {rest : List Pending} (hm : s.mode = .idle)
    (hend : endByte ∉ p) (hsum : checksum p ≠ endByte) (hfull : s.cfg.capacity ≤ p.length)
    (hp : s.pending = sendSeq p t d ++ rest) :
    ∃ u : State, RunsTo (s.cfg.capacity + 2) s u ∧ u.mode = .idle ∧ u.buffer = [] ∧
      u.pending = s.pending.drop (s.cfg.capacity + 2) ∧
      u.responses = s.responses ++ List.replicate (s.cfg.capacity + 1) (.event .none) ++
        [.event (.error .bufferOverflow)] := by
  have hlength : ((p ++ [checksum p]).take (s.cfg.capacity + 1)).length = s.cfg.capacity + 1 := by
    simpa using hfull
  have hfirst : [startByte] ++ (p ++ [checksum p]).take (s.cfg.capacity + 1) <+: encodeFrame p := by
    rw [encodeFrame_eq_body]
    exact ((List.prefix_append_right_inj _).2 (List.take_prefix ..)).trans (List.prefix_append ..)
  have hpending := feedSeq_prefix_append_drop hfirst hp
  rw [List.singleton_append, List.length_cons, hlength] at hpending
  exact overflowAtCapacityPlusOne s _ t d _ hm (mt List.mem_of_mem_take (endByte_notMem_body hend hsum)) hlength hpending

/-- The part of a payload before its first `END` is judged at that byte; what is left of the frame stays pending. -/
theorem run_encoded_inner_end {s : State} {p q : List Byte} {t d : Nat} {rest : List Pending} (hm : s.mode = .idle)
    (hend : endByte ∉ p) (hfit : p.length ≤ s.cfg.capacity)
    (hp : s.pending = sendSeq (p ++ [endByte] ++ q) t d ++ rest) :
    ∃ (u : State) (ev : Event), RunsTo (p.length + 2) s u ∧ u.mode = .idle ∧ u.buffer = [] ∧
      u.pending = s.pending.drop (p.length + 2) ∧ ev ≠ .none ∧
      u.responses = s.responses ++ List.replicate (p.length + 1) (.event .none) ++ [.event ev] := by
  have hfirst : [startByte] ++ p ++ [endByte] <+: encodeFrame (p ++ [endByte] ++ q) := by
    simp [encodeFrame]
  have hlength : ([startByte] ++ p ++ [endByte]).length = p.length + 2 := by simp
  have hpending := feedSeq_prefix_append_drop hfirst hp
  rw [hlength] at hpending
  exact ⟨_, .ofVerdict (validate p), run_frame hm hend hfit hpending, rfl, rfl, rfl, Event.ofVerdict_ne_none _, rfl⟩

/-- Settles O44: a frame fed back whole fails by its verdict; the other two failures come before its own `END`. -/
theorem encodedFrameFails : Obligations.EncodedFrameFails := by
  refine ⟨fun s p t d rest hm hend hsum hp => ⟨fun hshort hfit => ?_, fun hlen hfit hdeclared => ?_,
    fun hfull => run_encoded_overflow hm hend hsum hfull hp⟩,
    fun s p q t d rest hm hend hfit hp => run_encoded_inner_end hm hend hfit hp⟩
  · have hrun := run_encoded hm hend hsum hfit hp
    rw [validate_short (by rw [List.length_append, List.length_singleton]; omega)] at hrun
    exact ⟨_, hrun, rfl, rfl, rfl⟩
  · have hrun := run_encoded hm hend hsum hfit hp
    rw [validate_eq_lengthMismatch_iff.2 ⟨p, rfl, hlen, hdeclared⟩] at hrun
    exact ⟨_, hrun, rfl, rfl, rfl⟩

end Sys2Proof.Machine

/-! Proofs of the family 43_timeout_tick.md: when TICK reports a timeout (R161 to R164), and what a sequence of TICKs answers
(R167, R226). -/

namespace Sys2Proof.Machine

/-! ## What TICK answers while a frame with bytes is in flight (R162, R164) -/

/-- R164, U1: TICK looks at the clock before it looks for a stall. -/
theorem execTick_of_clockBehind {s : State} {now : Nat} (hm : s.mode = .collecting) (hb : s.buffer ≠ [])
    (hlt : now < s.lastByteTime) : execTick now s = .refused .clockBackwards := by
  rw [execTick, if_pos (inFlight_eq_true.2 ⟨hm, hb⟩), if_pos (clockBehind_eq_true.2 hlt)]

/-- R162: a stall is a timeout; a stamp that more than `TIMEOUT_MS` has passed since is not ahead of the clock. -/
theorem execTick_of_stalled {s : State} {now : Nat} (hm : s.mode = .collecting) (hb : s.buffer ≠ [])
    (hlate : s.cfg.timeoutMs < now - s.lastByteTime) : execTick now s = .next (s.raise .timeout) := by
  have hclock : ¬ now < s.lastByteTime := by omega
  rw [execTick, if_pos (inFlight_eq_true.2 ⟨hm, hb⟩), if_neg (mt clockBehind_eq_true.1 hclock),
    if_pos (stalled_eq_true.2 hlate)]

/-! ## The obligations about one TICK -/

/-- Settles O23: the buffer of a positive `len` holds bytes, and their frame has stalled. -/
theorem tickReportsTimeout : Obligations.TickReportsTimeout :=
  fun _ _ hm hlen hlate => execTick_of_stalled hm (List.length_pos_iff.1 hlen) hlate

/-- Settles O25: TICK does not look at the stamp, or finds it within the timeout. -/
theorem tickOtherwiseChangesNothing : Obligations.TickOtherwiseChangesNothing := by
  rintro s now (hidle | hnil | ⟨hle, hin⟩)
  · exact execTick_of_stampUnread now (.inl hidle)
  · exact execTick_of_stampUnread now (.inr hnil)
  · exact execTick_of_within hle hin

/-- Settles O26: the clock stands before the stamp of a frame with bytes. -/
theorem tickRefusesClockGoneBack : Obligations.TickRefusesClockGoneBack :=
  fun _ _ hm hlen hlt => execTick_of_clockBehind hm (List.length_pos_iff.1 hlen) hlt

theorem mode_eq_idle_of_ne_collecting {m : Mode} (h : m ≠ .collecting) : m = .idle := by
  cases m with
  | idle => rfl
  | collecting => exact absurd rfl h

/-- Settles O24: with the three conjuncts TICK reports the timeout (O23); without one of them it is one of the cases of
R163 (O25), which answer `None`. -/
theorem timeoutCondition : Obligations.TimeoutCondition := by
  refine ⟨rfl, fun s now hle => ?_⟩
  by_cases hstall : s.mode = .collecting ∧ 0 < s.len ∧ now - s.lastByteTime > s.cfg.timeoutMs
  · obtain ⟨hm, hlen, hlate⟩ := hstall
    exact ⟨_, _, tickReportsTimeout s now hm hlen hlate, rfl, iff_of_true rfl ⟨hm, hlen, hlate⟩⟩
  · have hquiet : s.mode = .idle ∨ s.buffer = [] ∨
        s.lastByteTime ≤ now ∧ now - s.lastByteTime ≤ s.cfg.timeoutMs := by
      rcases not_and_or.1 hstall with hm | hrest
      · exact .inl (mode_eq_idle_of_ne_collecting hm)
      · rcases not_and_or.1 hrest with hempty | hin
        · exact .inr (.inl (List.length_eq_zero_iff.1 (Nat.eq_zero_of_not_pos hempty)))
        · exact .inr (.inr ⟨hle, Nat.le_of_not_lt hin⟩)
    exact ⟨_, _, tickOtherwiseChangesNothing s now hquiet, rfl, iff_of_false nofun hstall⟩

/-! ## Sequences of TICKs (R167, R226) -/

/-- While no frame with bytes is in flight, TICKs answer `None` and leave it so, whatever their times. -/
theorem run_ticks (ts : List Nat) {s : State} {rest : List Pending} (hs : s.StampUnread)
    (hp : s.pending = ts.map tickReq ++ rest) :
    RunsTo ts.length s { s with
      pending := rest
      responses := s.responses ++ List.replicate ts.length (.event .none) } := by
  induction ts generalizing s with
  | nil =>
    obtain rfl : s.pending = rest := hp
    simp [RunsTo.refl]
  | cons t ts ih =>
    let waiting : State := { s with pending := ts.map tickReq ++ rest }
    have hunread : waiting.StampUnread := hs
    have hstep : step s = .next (waiting.respond (.event .none)) :=
      (step_tickReq hp).trans (execTick_of_stampUnread t hunread)
    have hrun := RunsTo.cons hstep (ih (s := waiting.respond (.event .none)) hunread rfl)
    simpa [waiting, State.respond, List.replicate_succ] using hrun

/-- Settles O54: the empty buffer keeps the stamp unread at every TICK. -/
theorem loneStartNeverTimesOut : Obligations.LoneStartNeverTimesOut :=
  fun _ ts _ hnil hp => run_ticks ts (.inr hnil) (hp.trans (List.append_nil _).symm)

/-- Settles O55: the first TICK raises the timeout, which leaves `Idle`, and there TICKs answer `None`. -/
theorem oneTimeoutPerStall : Obligations.OneTimeoutPerStall := by
  intro s now ts hm hlen hlate hp
  let waiting : State := { s with pending := ts.map tickReq }
  have hstep : step s = .next (waiting.raise .timeout) :=
    (step_tickReq hp).trans (execTick_of_stalled (s := waiting) hm (List.length_pos_iff.1 hlen) hlate)
  exact .cons hstep (run_ticks ts (s := waiting.raise .timeout) (.inl rfl) (List.append_nil _).symm)

end Sys2Proof.Machine

/-! Proofs of the family 44_reset.md: what RESET does (R170), RESET twice (R171), and the `END` that arrives after a RESET
(R172). -/

namespace Sys2Proof.Machine

/-- Settles O27: forcing `Idle` sets the mode and the buffer, answering adds the response. -/
theorem resetForcesIdle : Obligations.ResetForcesIdle := fun _ => rfl

/-- R171: in `Idle` with an empty buffer RESET adds its response and changes nothing else. -/
theorem exec_reset_of_idle {s : State} (hm : s.mode = .idle) (hb : s.buffer = []) :
    exec .reset s = .next { s with responses := s.responses ++ [.nothing] } := by
  rw [resetForcesIdle, ← hm, ← hb]

/-- Settles O28: a state after RESET, and by R24 (b) a legal state in `Idle`, is in `Idle` with an empty buffer; from there
RESET adds only its response. -/
theorem resetTwiceIsResetOnce : Obligations.ResetTwiceIsResetOnce := by
  constructor
  · intro s
    exact ⟨_, _, resetForcesIdle s, exec_reset_of_idle rfl rfl, rfl, rfl, rfl, rfl, rfl⟩
  · rintro s ⟨-, hempty, -⟩ hidle
    exact ⟨_, exec_reset_of_idle hidle (hempty hidle), rfl⟩

theorem step_resetReq {s : State} {rest : List Pending} (h : s.pending = resetReq :: rest) :
    step s = .next { s with mode := .idle, buffer := [], pending := rest, responses := s.responses ++ [.nothing] } :=
  (step_serial h decode_resetReq).trans (resetForcesIdle _)

/-- Settles O57: the RESET leaves `Idle`, where `END` is noise. -/
theorem resetAbandonsTheFrame : Obligations.ResetAbandonsTheFrame := by
  intro s t rest hp
  have hend : (0x7E : Byte) ≠ startByte := by decide
  have hrun := RunsTo.cons (step_resetReq hp) (run_noise_byte rfl hend rfl)
  simpa using hrun

end Sys2Proof.Machine

/-! Proofs of the family 60_exceptions.md: raising an error is a local reset (R185), `Received` comes of `END` alone (R195),
a step keeps the host's duties (R196), and within them nothing stops the machine (R188). -/

namespace Sys2Proof.Machine

/-! ## The effects that answer an error or a delivery (R185, R195) -/

/-- The effects that answer an error end in `State.raise`. -/
theorem Effect.idle_of_error {s t : State} {i : Instr} {k : ErrorKind} (h : Effect s i t)
    (hr : t.responses = s.responses ++ [.event (.error k)]) : t.mode = .idle ∧ t.buffer = [] := by
  cases h with
  | tickTimeout | rejected | overflowed => exact ⟨rfl, rfl⟩
  | csum | encode | reset | tickNothing | opened | noise | delivered | appended => simp at hr

/-- The one effect that answers `Received` is that of `END` in `Collecting`. -/
theorem Effect.end_of_received {s t : State} {i : Instr} {r : Received} (h : Effect s i t)
    (hr : t.responses = s.responses ++ [.event (.received r)]) :
    fedByte i = some endByte ∧ s.mode = .collecting ∧ t.mode = .idle ∧ t.buffer = [] := by
  cases h with
  | delivered hb _ hm => exact ⟨hb, hm, rfl, rfl⟩
  | csum | encode | reset | tickNothing | tickTimeout | opened | noise | rejected | appended | overflowed => simp at hr

/-- Settles O20: an error's effect forces `Idle`; the frame and the stamp are those of every effect. -/
theorem raisingAnErrorResetsLocally : Obligations.RaisingAnErrorResetsLocally := by
  intro i s t k h hr
  have heffect := exec_effect h
  obtain ⟨hmode, hbuffer⟩ := heffect.idle_of_error hr
  obtain ⟨hcfg, hpending⟩ := heffect.frame
  exact ⟨hmode, hbuffer, hcfg, hpending, heffect.lastByteTime_eq⟩

/-- Settles O21: only the effect of `END` delivers. -/
theorem receivedOnlyFromEnd : Obligations.ReceivedOnlyFromEnd :=
  fun _ _ _ _ h hr => (exec_effect h).end_of_received hr

/-! ## A step keeps the host's duties (R196, R24 (d)) -/

/-- A frame with bytes in flight after an effect has the stamp that the effect gave it, or was in flight before. -/
theorem Effect.keeps_stampAmong {s t : State} {i : Instr} {earlier : List Nat} (h : Effect s i t)
    (hs : s.StampAmong earlier) : t.StampAmong (earlier ++ (fedTime i).toList) := by
  intro hm hb
  cases h with
  | csum | encode | tickNothing => exact List.mem_append_left _ (hs hm hb)
  | reset | tickTimeout => cases hm
  | opened _ hn | noise _ hn | delivered _ hn | rejected _ hn | appended _ hn | overflowed _ hn => simp [hn]

/-- The time a request feeds is its clock reading; a TICK carries a reading and feeds no time. -/
theorem Pending.feedTime_subset_clock (p : Pending) : p.feedTime.toList ⊆ p.clock.toList := by
  unfold Pending.feedTime Pending.clock
  by_cases hop : p.request.op = opFeed <;> simp [hop]

/-- The clock readings of a queue are that of its first request, if it carries one, and then those of the rest. -/
theorem filterMap_clock_cons (p : Pending) (rest : List Pending) :
    (p :: rest).filterMap Pending.clock = p.clock.toList ++ rest.filterMap Pending.clock := by
  simp only [List.filterMap_eq_flatMap_toList, List.flatMap_cons]

theorem State.HostDuties.tail {s t : State} {p : Pending} {rest : List Pending} {earlier : List Nat}
    (h : s.HostDuties earlier) (hs : s.pending = p :: rest) (ht : t.pending = rest) :
    t.HostDuties (earlier ++ p.clock.toList) := by
  obtain ⟨hproper, hclocks⟩ := h
  rw [hs, filterMap_clock_cons, ← List.append_assoc] at hclocks
  rw [State.HostDuties, ht]
  exact ⟨fun q hq => hproper q (hs ▸ List.mem_cons_of_mem p hq), hclocks⟩

/-- Settles O49: the request taken moves its reading to the earlier ones, and a stamp given is that reading. -/
theorem stepKeepsDuties : Obligations.StepKeepsDuties := by
  intro s t p rest earlier hp hduties hstamp hstep
  obtain ⟨i, hd, heffect⟩ := step_effect_of_cons hp hstep
  refine ⟨hduties.tail hp heffect.frame.2, fun hm hb => ?_⟩
  have hamong : t.lastByteTime ∈ earlier ++ (fedTime i).toList := heffect.keeps_stampAmong hstamp hm hb
  rw [← (Pending.feed_of_decode hd).2] at hamong
  exact List.mem_append.2 ((List.mem_append.1 hamong).imp_right fun hfed => p.feedTime_subset_clock hfed)

/-! ## Within the host's duties nothing stops the machine (R188) -/

/-- If the operation is a TICK and a frame with bytes is in flight, its clock does not stand before the stamp (R164). -/
def State.ClockReady (i : Instr) (s : State) : Prop :=
  ∀ now, i = .tick now → s.mode = .collecting → s.buffer ≠ [] → s.lastByteTime ≤ now

/-- R164, U1: a TICK whose clock has gone back is the only TICK without a meaning. -/
theorem exec_tick_total {s : State} {now : Nat} (h : s.ClockReady (.tick now)) : ∃ t, exec (.tick now) s = .next t := by
  by_cases hf : s.inFlight = true
  · obtain ⟨hm, hb⟩ := inFlight_eq_true.1 hf
    obtain ⟨t, e, hnext, -⟩ := timeoutCondition.2 s now (h now rfl hm hb)
    exact ⟨t, hnext⟩
  · exact ⟨_, if_neg hf⟩

/-- The operation that a request names always has a meaning, but for the clock of a TICK. -/
theorem exec_total_of_decode {r : Request} {i : Instr} {s : State} (hd : decodeRequest r = .instr i)
    (hclock : s.ClockReady i) : ∃ t, exec i s = .next t := by
  rcases decodeRequest_cases hd with ⟨-, rfl⟩ | ⟨-, rfl⟩ | ⟨-, rfl⟩ | ⟨-, rfl⟩ | ⟨-, rfl⟩
  · exact ⟨_, rfl⟩
  · exact exec_feed_total r.byte r.now s
  · exact ⟨_, rfl⟩
  · exact exec_tick_total hclock
  · exact ⟨_, rfl⟩

/-- R196: a proper request names an operation and is not refused for its issue. -/
theorem Pending.proper.decodes {p : Pending} (h : p.proper) :
    ∃ i, decodeRequest p.request = .instr i ∧ issueRefusal p.issue i = none := by
  obtain ⟨hop, hissue⟩ := h
  obtain ⟨i, hd⟩ := reservedCodesAreRefused.2 p.request hop
  refine ⟨i, hd, ?_⟩
  rcases hissue with hpure | hserial
  · refine issueRefusal_of_not_touchesEngine ?_ p.issue
    rw [touchesEngine_of_decode hd, hpure]
    rfl
  · rw [hserial]
    rfl

theorem Pending.clock_of_decode_tick {p : Pending} {now : Nat} (h : decodeRequest p.request = .instr (.tick now)) :
    p.clock = some now := by
  rcases decodeRequest_cases h with ⟨-, hi⟩ | ⟨-, hi⟩ | ⟨-, hi⟩ | ⟨hop, hi⟩ | ⟨-, hi⟩ <;> cases hi
  exact if_pos (.inr hop)

/-- The stamp of a frame in flight is an earlier reading, and no reading in the queue is below an earlier one. -/
theorem State.HostDuties.clockReady {s : State} {p : Pending} {rest : List Pending} {i : Instr} {earlier : List Nat}
    (h : s.HostDuties earlier) (hstamp : s.StampAmong earlier) (hp : s.pending = p :: rest)
    (hd : decodeRequest p.request = .instr i) : s.ClockReady i := by
  rintro now rfl hm hb
  obtain ⟨-, hclocks⟩ := h
  have hnow : now ∈ s.pending.filterMap Pending.clock := by
    simp [hp, Pending.clock_of_decode_tick hd]
  exact (List.pairwise_append.1 hclocks).2.2 _ (hstamp hm hb) _ hnow

/-- Within the host's duties a request that is taken is answered: the step ends in a next state with one more response. -/
theorem State.HostDuties.step_answers {s : State} {p : Pending} {rest : List Pending} {earlier : List Nat}
    (h : s.HostDuties earlier) (hstamp : s.StampAmong earlier) (hp : s.pending = p :: rest) :
    ∃ u, step s = .next u ∧ u.pending = rest ∧ u.responses.length = s.responses.length + 1 := by
  obtain ⟨i, hd, hissue⟩ := (h.1 p (hp ▸ List.mem_cons_self)).decodes
  have hready : State.ClockReady i { s with pending := rest } := h.clockReady hstamp hp hd
  obtain ⟨u, hexec⟩ := exec_total_of_decode hd hready
  obtain ⟨r, hresponses, -, hpending, -⟩ := oneResponsePerOperation i _ u hexec
  exact ⟨u, (step_of_issueRefusal_none hp hd hissue).trans hexec, hpending, by simp [hresponses]⟩

/-- Settles O50: by induction on the number of steps, each of which answers its request and keeps the duties. -/
theorem noStopWithinDuties : Obligations.NoStopWithinDuties := by
  intro s k
  induction k generalizing s with
  | zero => exact fun _ _ _ => ⟨s, .refl s, by simp⟩
  | succ k ih =>
    intro earlier hduties hstamp
    cases hp : s.pending with
    | nil =>
      obtain ⟨t, hrun, hlen⟩ := ih s earlier hduties hstamp
      exact ⟨t, .cons (step_nil hp) hrun, by simpa [hp] using hlen⟩
    | cons p rest =>
      obtain ⟨u, hstep, hpending, hone⟩ := hduties.step_answers hstamp hp
      obtain ⟨hduties', hstamp'⟩ := stepKeepsDuties s u p rest earlier hp hduties hstamp hstep
      obtain ⟨t, hrun, hlen⟩ := ih u _ hduties' hstamp'
      refine ⟨t, .cons hstep hrun, ?_⟩
      rw [hlen, hone, hpending, List.length_cons]
      omega

end Sys2Proof.Machine

/-! Proofs of the family 70_reset_and_hazards.md: a bounded number of bytes brings the engine back to `Idle` (R240). -/

namespace Sys2Proof.Machine

/-- Settles O53: the bytes overflow the buffer, and the overflow drops the frame. -/
theorem nonEndFeedsReachIdle : Obligations.NonEndFeedsReachIdle := by
  intro s w t d rest hm hfit hend hlen hp
  have hbound : w.length ≤ s.cfg.capacity + 1 := hlen ▸ Nat.le_add_right _ _
  have hrun := run_collect_overflow hm hend ((Nat.add_comm _ _).trans hlen) hfit hp
  exact ⟨hbound, _, hrun, rfl, rfl, rfl⟩

end Sys2Proof.Machine
